-- ==== Sys2Proof/Word.lean ====
section
/-! DEFINITION. The two word types of the engine: 32-bit command, operand, result and register words, and 16-bit samples
(spec R9 and R42-R45). -/

namespace Sys2Proof

/-- A 32-bit word: CMD, A, B, R (R60, R63) and the pattern a state register holds (R20). Bit 0 is the least
significant bit (R9). -/
abbrev Word := BitVec 32

/-- A 16-bit sample pattern, read as two's complement (R7 SAMPLE_WIDTH, R43). -/
abbrev Sample := BitVec 16

end Sys2Proof
end

