-- ==== Sys2Proof/Machine/Constants.lean ====
section
/-! DEFINITION. The fixed constants of R7, hard-wired into the ROM, the reset sequence and the quantizer (R29), as binary32
patterns where the spec uses them as binary32 values. -/

namespace Sys2Proof.Machine

/-- FC_MIN = 1.0 (R7). -/
def fcMin : Word := 0x3F800000#32

/-- FS_MIN = 1000.0 (R7). -/
def fsMin : Word := 0x447A0000#32

/-- FS_FALLBACK = 44100.0 (R7). -/
def fsFallback : Word := 0x472C4400#32

/-- FC_DEFAULT = 60.0 (R7). -/
def fcDefault : Word := 0x42700000#32

/-- FS_DEFAULT = 44100.0 (R7). -/
def fsDefault : Word := 0x472C4400#32

/-- COEF_PREDEFAULT = 1.0 (R7, R32). -/
def coefPredefault : Word := 0x3F800000#32

/-- Q_MAX = 32767 (R7). -/
def qMax : Int := 32767

/-- Q_MIN = -32768 (R7). -/
def qMin : Int := -32768

/-- The binary32 pattern of +0.0 (R24, R35). -/
def plusZero : Word := 0x00000000#32

/-- The binary32 pattern of 1.0 (R103). -/
def one32 : Word := 0x3F800000#32

/-- The NaN every arithmetic primitive and the ROM produce (R11, D8). -/
def canonicalNaN : Word := 0x7FC00000#32

end Sys2Proof.Machine
end

