-- ==== Sys2Proof/Machine/Binary32.lean ====
section
/-! DEFINITION. The binary32 primitives of R11 over the layout of R24. A finite value is an integer count of 2^-149, the
spacing of the subnormals; sums and products are computed exactly and rounded once. Signs of zeros and the arithmetic on
infinities are IEEE 754's, which R11 names (PRESUMED, log entry 18). (In a product or sum with a large
numeral the numeral stands first: Lean's kernel would unfold it digit by digit in the second place.) -/

namespace Sys2Proof.Machine

/-- The sign bit, bit 31 (R24). -/
def signBit (w : Word) : Bool := w.msb

/-- The biased exponent, bits 30:23 (R24). -/
def expField (w : Word) : Nat := (w.extractLsb' 23 8).toNat

/-- The fraction, bits 22:0 (R24). -/
def fracField (w : Word) : Nat := (w.extractLsb' 0 23).toNat

/-- A NaN pattern: exponent all ones and fraction not zero (R11, R24). -/
def isNaN (w : Word) : Bool := decide (expField w = 255) && decide (fracField w ≠ 0)

/-- A pattern of +infinity or -infinity (R24). -/
def isInf (w : Word) : Bool := decide (expField w = 255) && decide (fracField w = 0)

/-- A pattern of a finite value: the exponent is not all ones (R24). -/
def isFinite (w : Word) : Bool := decide (expField w ≠ 255)

/-- The magnitude of a finite value in units of 2^-149 (R24: ±0 and subnormals have exponent zero). -/
def magUnits (w : Word) : Nat :=
  if expField w = 0 then fracField w else 2 ^ (expField w - 1) * (2 ^ 23 + fracField w)

/-- A finite value in units of 2^-149. Both zeros are 0 (R11). -/
def units (w : Word) : Int := if signBit w then -(magUnits w : Int) else (magUnits w : Int)

/-- `real(v)` of R11: the number that a finite binary32 denotes. -/
def real (w : Word) : ℚ := (units w : ℚ) / 2 ^ 149

/-- The pattern with the given sign and the given low 31 bits. -/
def pack (neg : Bool) (mag : Nat) : Word := BitVec.ofNat 32 ((if neg then 2 ^ 31 else 0) + mag)

/-- The quotient n / d (d positive) rounded to the nearest integer, ties to even. -/
def divNearestEven (n d : Nat) : Nat :=
  let q := n / d
  let r := n % d
  if 2 * r < d then q else if d < 2 * r then q + 1 else q + q % 2

/-- The low 31 bits of the binary32 nearest to n / d units of 2^-149 (d positive), ties to even, with gradual underflow
and overflow to infinity (R11, D6). With k the least shift for which n / d is below 2^24 units of 2^(k-149), the
pattern is k binades of 2^23 patterns each and the rounded count of those units. -/
def roundMag (n d : Nat) : Nat :=
  let k := (n / d).log2 - 23
  min (2 ^ 23 * k + divNearestEven n (d * 2 ^ k)) 0x7F800000

/-- `round32` of R11 on the rational of the given sign and magnitude num / den (den positive). -/
def roundRational (neg : Bool) (num den : Nat) : Word := pack neg (roundMag (2 ^ 149 * num) den)

/-- The value with its sign changed. -/
def neg32 (w : Word) : Word := w ^^^ 0x80000000#32

/-- The binary32 sum (R11): exact, rounded once; a NaN result is 0x7FC00000. An exact zero sum is -0.0 only when both
operands are negative zeros (R123 (d)). -/
def add32 (a b : Word) : Word :=
  if isNaN a || isNaN b then canonicalNaN
  else if isInf a then (if isInf b && signBit a != signBit b then canonicalNaN else a)
  else if isInf b then b
  else
    let n := units a + units b
    pack (if n = 0 then signBit a && signBit b else decide (n < 0)) (roundMag n.natAbs 1)

/-- The binary32 difference (R11): the sum with the second operand's sign changed. -/
def sub32 (a b : Word) : Word := add32 a (neg32 b)

/-- The binary32 product (R11): exact, rounded once; a NaN result (0 × infinity too) is 0x7FC00000. -/
def mul32 (a b : Word) : Word :=
  let neg := signBit a != signBit b
  if isNaN a || isNaN b then canonicalNaN
  else if isInf a then (if isFinite b && magUnits b == 0 then canonicalNaN else pack neg 0x7F800000)
  else if isInf b then (if magUnits a == 0 then canonicalNaN else pack neg 0x7F800000)
  else pack neg (roundMag (magUnits a * magUnits b) (2 ^ 149))

/-- A number in the order of the values that are not NaN: the low 31 bits with the sign. Both zeros are 0. -/
def orderKey (w : Word) : Int :=
  if signBit w then (2 ^ 31 : Int) - w.toNat else (w.toNat : Int)

/-- IEEE less than (R11): false when either operand is NaN. -/
def lt32 (a b : Word) : Bool := !isNaN a && !isNaN b && decide (orderKey a < orderKey b)

/-- The binary32 value of an int16 (R11, R140). -/
def i16ToF32 (x : Sample) : Word := pack (decide (x.toInt < 0)) (roundMag (2 ^ 149 * x.toInt.natAbs) 1)

/-- `trunc(real(v))` of a finite value: the integer part, toward zero (R11). -/
def truncUnits (w : Word) : Int := (units w).tdiv (2 ^ 149)

end Sys2Proof.Machine
end

