-- ==== Sys2Proof/Machine/CoefRom.lean ====
section
/-! DEFINITION. The coefficient ROM of R100-R103, a total function of two binary32 patterns (R109).

R102 asks for the real number fs' / (fs' + 2 π fc') rounded once. Whether that number lies above or below a rounding
boundary m is the question whether π lies below or above fs' (1 - m) / (2 m fc'), a fraction whose denominator in lowest
terms is below 2^180 whenever the fraction is near π. `piNum / piDen` is a convergent of π with a denominator above
2^191: no such fraction lies between it and π, and none equals it, so the formula with `piNum / piDen` in place of π
rounds to the same binary32 for every operand pair (DEDUCED, safe, log entry 9). -/

namespace Sys2Proof.Machine

/-- The numerator of the convergent of π that stands for π (log entry 9). -/
def piNum : Nat := 0x21fbc1fdd411952e035ca17347104199eea402189595b7f64

/-- The denominator of the convergent of π that stands for π (log entry 9). -/
def piDen : Nat := 0xad1380a64763170b74294735d2061dc4e788db71f99ebd01

/-- The cutoff clamp (R100): below 1.0 becomes 1.0; a NaN stays. -/
def clampCutoff (fc : Word) : Word := if lt32 fc fcMin then fcMin else fc

/-- The rate fallback (R101): below 1000.0 becomes 44100.0; a NaN stays. -/
def clampRate (fs : Word) : Word := if lt32 fs fsMin then fsFallback else fs

/-- The ROM value for finite clamped operands (R102): both are positive, so their magnitudes in units of 2^-149 are their
values, and the common unit cancels. -/
def coefRomFinite (fc fs : Word) : Word :=
  roundRational false (piDen * magUnits fs) (piDen * magUnits fs + 2 * piNum * magUnits fc)

/-- The ROM value for clamped operands (R102, R103). -/
def coefRomClamped (fc fs : Word) : Word :=
  if isNaN fc || isNaN fs then canonicalNaN
  else if isInf fc then (if isInf fs then canonicalNaN else plusZero)
  else if isInf fs then one32
  else coefRomFinite fc fs

/-- COEF_ROM (R100-R103, R109). -/
def coefRom (fc fs : Word) : Word := coefRomClamped (clampCutoff fc) (clampRate fs)

end Sys2Proof.Machine
end

