-- ==== Sys2Proof/Config.lean ====
section
/-! DEFINITION. What the spec leaves open: the block length (R8, D13) and the value of a NaN's quantization (R8, R143, D11).
Both are constants without a body, so no proof can see a value of either and every theorem holds for all of them. -/

namespace Sys2Proof

/-- BLOCK_LEN - 1: any natural number (log entry 3). -/
opaque Config.blockLenPred : Nat

/-- BLOCK_LEN, the fixed length of every block: a natural number of at least 1, fixed for the engine's lifetime (R8, D13). -/
def Config.blockLen : Nat := Config.blockLenPred + 1

/-- The draws nanSample: draw number n is any int16 (R143, D11; log entry 4). A draw is never read twice, since
`State.draws` moves on with each one. -/
opaque Config.nanSample : Nat → Sample

end Sys2Proof
end

