-- ==== Sys2Proof/Syntax.lean ====
section
/-! DEFINITION. The three-word command (R60) and the ten commands of the opcode map (R64). -/

namespace Sys2Proof

/-- One command as it crosses the command port: always three words (R60, R68). -/
structure Command where
  /-- The command word CMD (R61). -/
  cmd : Word
  /-- Operand word A (R62). -/
  a : Word
  /-- Operand word B (R62). -/
  b : Word
  deriving DecidableEq, Repr

/-- The ten commands (R64), each with the operand bits it reads (R62) and no others: an operand bit the engine ignores
is no part of the instruction. -/
inductive Instr where
  /-- NOP, OP 0x0 (R180). -/
  | nop
  /-- CONFIG, OP 0x1 (R104): A is bits32(cutoffHz), B is bits32(sampleRate). -/
  | config (cutoff rate : Word)
  /-- RESET, OP 0x2 (R126). -/
  | reset
  /-- PROCF, OP 0x3 (R124): A is bits32(x). -/
  | procf (x : Word)
  /-- PROCS, OP 0x4 (R145): A[15:0] is the sample. -/
  | procs (x : Sample)
  /-- QUANT, OP 0x5 (R146): A is bits32(y). -/
  | quant (y : Word)
  /-- PROCB, OP 0x6 (R163). -/
  | procb
  /-- RDCOEF, OP 0x7 (R182). -/
  | rdcoef
  /-- RDPIN, OP 0x8 (R183). -/
  | rdpin
  /-- RDPOUT, OP 0x9 (R184). -/
  | rdpout
  deriving DecidableEq, Repr

end Sys2Proof
end

