-- ==== Sys2Proof/Machine/State.lean ====
section
/-! DEFINITION. The state: the three registers of R20, the observation of a run that R230 names (event history and
responses), and the inputs of the step that R37 names (the host's commands and its answers), with the counter of the
nanSample draws. -/

namespace Sys2Proof.Machine

/-- An input block as HostAcquire gives it (R12): the pool's name for it and its samples. The host's duty is to give
exactly BLOCK_LEN samples (R166). -/
structure InBlock where
  /-- The pool's name for the block, used as is (R49). -/
  handle : Nat
  /-- `blk[i]` for 0 <= i < BLOCK_LEN. -/
  samples : List Sample
  deriving DecidableEq, Repr

/-- An output block handle as HostAllocate gives it (R12). The host's duty is BLOCK_LEN writable slots (R166). -/
structure OutHandle where
  /-- The pool's name for the block, used as is (R49). -/
  handle : Nat
  /-- How many writable sample slots the block has. -/
  slots : Nat
  deriving DecidableEq, Repr

/-- The host's answers during one command, parameters of the engine's step (R37, R166, D14). -/
structure HostAnswers where
  /-- The answer to HostAcquire, if the command calls it. -/
  acquire : Option InBlock
  /-- The answer to HostAllocate, if the command calls it. -/
  allocate : Option OutHandle
  deriving DecidableEq, Repr

/-- The status ST of a response, one bit (R63). -/
inductive Status where
  /-- ST = 0. -/
  | ok
  /-- ST = 1: only for an illegal command. -/
  | illegal
  deriving DecidableEq, Repr

/-- A response (ST, R) (R63). -/
structure Response where
  st : Status
  r : Word
  deriving DecidableEq, Repr

/-- One call of a host or sample primitive of R12, in the order the engine makes them. -/
inductive Event where
  /-- Acquire(answer) (R46). -/
  | acquire (answer : Option InBlock)
  /-- Allocate(answer) (R46). -/
  | allocate (answer : Option OutHandle)
  /-- InRead(blk, i) gave v (R12, R45): no side effect. -/
  | inRead (blk : Nat) (i : Nat) (v : Sample)
  /-- OutWrite(h, i, v) (R12, R45). -/
  | outWrite (h : Nat) (i : Nat) (v : Sample)
  /-- Release(blk) (R46). -/
  | release (blk : InBlock)
  /-- Deliver(h) (R46), with the samples written to the delivered block, index 0 first (R230). -/
  | deliver (h : OutHandle) (samples : List Sample)
  deriving DecidableEq, Repr

/-- What the outside gives the engine, one entry a step. -/
inductive HostInput where
  /-- A command, with the host's answers during it (R37, R40). -/
  | command (c : Command) (answers : HostAnswers)
  /-- The platform's reset between commands (R220). -/
  | engineReset
  /-- The host issues `second` before the response to `first`: a broken duty (R40, R166, I2). -/
  | overlap (first second : Command)
  /-- The host changes a block while the engine holds it during `c`: a broken duty (R166, I2). -/
  | changeHeldBlock (c : Command)
  /-- A reset asserted while `c` is in progress (R223, I3). -/
  | resetDuring (c : Command)
  deriving DecidableEq, Repr

/-- The faults of the machine: none. The engine raises no exception and takes no trap (R200), and every command is one
step that always completes (R229); nothing raises a fault, which is safe. -/
inductive Fault where
  deriving DecidableEq, Repr

/-- Why a step has no meaning. Except for `notModelled` each is a run that the spec tells a model to refuse. -/
inductive Refusal where
  /-- The instruction has no meaning yet. Raised by no arm of `exec` any more. Safe. -/
  | notModelled (mnemonic : String)
  /-- A command issued before the response to the one before it (R40, R166, I2). Raised by `fetch`. Safe as a refusal;
  that the host never does it is the spec's assumption (D16). -/
  | commandOverlap
  /-- An input block changed while the engine holds it (R166, I2, D28). Raised by `fetch`. Safe as a refusal. -/
  | heldBlockChanged
  /-- A reset during a command (R223, I3). Raised by `fetch`. Safe. -/
  | resetDuringCommand
  /-- HostAcquire answered with a block that has not BLOCK_LEN samples (R166, I2, D28). Raised by PROCB. Safe as a
  refusal. -/
  | blockLength
  /-- HostAllocate answered with a block of fewer than BLOCK_LEN slots (R166, I2, D28). Raised by PROCB. Safe as a
  refusal. -/
  | outputSlots
  deriving DecidableEq, Repr

/-- The state between two steps. -/
structure State where
  /-- COEF, the binary32 feedback coefficient (R21). -/
  coef : Word
  /-- PREV_IN, the last input of the recurrence, binary32 (R22). -/
  prevIn : Word
  /-- PREV_OUT, the last output of the recurrence before quantization, binary32 (R23). -/
  prevOut : Word
  /-- Every primitive call so far, oldest first (R12, R46; log entry 5). -/
  trace : List Event
  /-- Every response returned so far, oldest first (R230; log entry 5). The engine never reads it (R27). -/
  responses : List Response
  /-- What the host will issue, next first (R40, R230; log entry 1). -/
  inputs : List HostInput
  /-- The host's answers during the command in progress (R37; log entry 2). -/
  answers : HostAnswers
  /-- How many nanSample draws have been taken (R143; log entry 4). -/
  draws : Nat
  deriving DecidableEq, Repr

/-- The state after the engine reset (R35, R221), with nothing issued yet. -/
def State.reset : State where
  coef := 0x3F7DD483#32
  prevIn := 0x00000000#32
  prevOut := 0x00000000#32
  trace := []
  responses := []
  inputs := []
  answers := ⟨none, none⟩
  draws := 0

end Sys2Proof.Machine
end

