-- ==== Sys2Proof/Machine/Flags.lean ====
section
/-! DEFINITION. The engine has no flags and no condition codes (R27), and floating-point exceptions set none (R213). What it
reports instead are the status bit ST (R63) and the PROCB outcome (R165). -/

namespace Sys2Proof.Machine

/-- The status bit: 0 = OK, 1 = ILLEGAL (R63). -/
def statusBit : Status → BitVec 1
  | .ok => 0#1
  | .illegal => 1#1

/-- The PROCB outcomes (R160, R165). -/
inductive BlockOutcome where
  /-- A block was processed and delivered. -/
  | done
  /-- Acquire answered none. -/
  | noInput
  /-- Allocate answered none; the input was released. -/
  | noOutput
  deriving DecidableEq, Repr

/-- The outcome codes of R165. -/
def outcomeCode : BlockOutcome → Nat
  | .done => 0
  | .noInput => 1
  | .noOutput => 2

end Sys2Proof.Machine
end

