-- ==== Sys2Proof/Machine/Operands.lean ====
section
/-! DEFINITION. Operand and result forms (R65, R66). A binary32 operand or result is its word, taken as is, and needs no
function. -/

namespace Sys2Proof.Machine

/-- `sext_32(bits16(q))`: an int16 result in R (R66). -/
def sampleResult (q : Sample) : Word := q.signExtend 32

/-- `zext_32` of a PROCB outcome code in R (R66, R165). -/
def codeResult (code : Nat) : Word := BitVec.ofNat 32 code

end Sys2Proof.Machine
end

