-- ==== Sys2Proof/Machine/Ops.lean ====
section
/-! DEFINITION. The named operations every meaning is made of: register writes, the response, the report of an illegal
command (R12, R185; the engine takes no exception, R204, and so has no return from one, R205), the host primitives (R12),
the recurrence (R121), the quantizer (R141), the sample path (R145, R163) and the engine reset (R220). -/

namespace Sys2Proof.Machine

/-- COEF <- v (R10). -/
def writeCoef (v : Word) (s : State) : State := { s with coef := v }

/-- PREV_IN <- v (R10). -/
def writePrevIn (v : Word) (s : State) : State := { s with prevIn := v }

/-- PREV_OUT <- v (R10). -/
def writePrevOut (v : Word) (s : State) : State := { s with prevOut := v }

/-- Appends a primitive call to the trace (R12, R46). -/
def record (e : Event) (s : State) : State := { s with trace := s.trace ++ [e] }

/-- `respond(st, r)` (R12, R63). -/
def respond (st : Status) (r : Word) (s : State) : State := { s with responses := s.responses ++ [⟨st, r⟩] }

/-- `raise Illegal(cmd)`: the response (ILLEGAL, 0) and nothing else (R12, R185). The engine's only form of raise. -/
def raiseIllegal (s : State) : State := respond .illegal 0#32 s

/-- The answer of HostAcquire (R12, R166). -/
def acquireAnswer (s : State) : Option InBlock := s.answers.acquire

/-- The answer of HostAllocate (R12, R166). -/
def allocateAnswer (s : State) : Option OutHandle := s.answers.allocate

/-- The call HostAcquire, event Acquire(answer) (R46). -/
def hostAcquire (s : State) : State := record (.acquire (acquireAnswer s)) s

/-- The call HostAllocate, event Allocate(answer) (R46). -/
def hostAllocate (s : State) : State := record (.allocate (allocateAnswer s)) s

/-- The call HostRelease(blk) (R46). -/
def hostRelease (blk : InBlock) (s : State) : State := record (.release blk) s

/-- The call HostDeliver(h), with the samples written to h (R46, R230). -/
def hostDeliver (h : OutHandle) (samples : List Sample) (s : State) : State := record (.deliver h samples) s

/-- InRead(blk, i), giving v (R12). -/
def inRead (blk : InBlock) (i : Nat) (v : Sample) (s : State) : State := record (.inRead blk.handle i v) s

/-- OutWrite(h, i, v) (R12). -/
def outWrite (h : OutHandle) (i : Nat) (v : Sample) (s : State) : State := record (.outWrite h.handle i v) s

/-- The duty of the host at HostAcquire: exactly BLOCK_LEN samples (R166). -/
def InBlock.dutyMet (blk : InBlock) : Bool := decide (blk.samples.length = Config.blockLen)

/-- The duty of the host at HostAllocate: BLOCK_LEN writable slots (R166); only too few are a breach (I2). -/
def OutHandle.dutyMet (h : OutHandle) : Bool := decide (Config.blockLen ≤ h.slots)

/-- The y of the recurrence at the state's registers (R121): add, then subtract, then multiply, each rounded. -/
def recurrence (x : Word) (s : State) : Word := mul32 s.coef (sub32 (add32 s.prevOut x) s.prevIn)

/-- The state after processSample(x) (R121): y is computed from the registers at entry, then PREV_IN <- x, then
PREV_OUT <- y. -/
def processSample (x : Word) (s : State) : State := writePrevOut (recurrence x s) (writePrevIn x s)

/-- Quantize of a value that is not a NaN (R141): clamp, then truncate toward zero. -/
def quantizeNumber (y : Word) : Sample :=
  if isInf y then BitVec.ofInt 16 (if signBit y then qMin else qMax)
  else if qMax * 2 ^ 149 ≤ units y then BitVec.ofInt 16 qMax
  else if units y ≤ qMin * 2 ^ 149 then BitVec.ofInt 16 qMin
  else BitVec.ofInt 16 (truncUnits y)

/-- The result of Quantize(y) (R141): for a NaN the next nanSample draw (R143). -/
def quantized (y : Word) (s : State) : Sample :=
  if isNaN y then Config.nanSample s.draws else quantizeNumber y

/-- The state after Quantize(y): a NaN takes one draw, so that the next one is fresh (R143). -/
def takeDraw (y : Word) (s : State) : State := { s with draws := if isNaN y then s.draws + 1 else s.draws }

/-- The sample that one sample of the integer path gives (R145, R163): convert, filter, quantize. -/
def pathSample (x : Sample) (s : State) : Sample :=
  quantized (recurrence (i16ToF32 x) s) (processSample (i16ToF32 x) s)

/-- The state after one sample of the integer path (R145, R163). -/
def pathState (x : Sample) (s : State) : State :=
  takeDraw (recurrence (i16ToF32 x) s) (processSample (i16ToF32 x) s)

/-- The engine reset (R220), the source's construction as one step. It begins a new run, so the trace and the responses are
empty after it (R221, R230; log entry 6). What the host will issue and the count of draws are not the engine's. -/
def engineReset (s : State) : State :=
  let configured := writeCoef (coefRom fcDefault fsDefault) (writeCoef coefPredefault s)
  let cleared := writePrevOut plusZero (writePrevIn plusZero configured)
  { cleared with trace := [], responses := [] }

end Sys2Proof.Machine
end

