-- ==== Sys2Proof/Machine/BlockProcessor.lean ====
section
/-! DEFINITION. PROCB, the block sequencer (R160-R170). -/

namespace Sys2Proof.Machine

/-- The state after sample number `i` of a block (R163): read it, filter it, write its quantized output. -/
def blockSample (blk : InBlock) (h : OutHandle) (i : Nat) (x : Sample) (s : State) : State :=
  let r := inRead blk i x s
  outWrite h i (pathSample x r) (pathState x r)

/-- The state after the samples `xs`, which stand at the indices from `i` on (R163). -/
def blockState (blk : InBlock) (h : OutHandle) : Nat → List Sample → State → State
  | _, [], s => s
  | i, x :: xs, s => blockState blk h (i + 1) xs (blockSample blk h i x s)

/-- The samples written to the output block for the samples `xs`, which stand at the indices from `i` on (R163). -/
def blockOutput (blk : InBlock) (h : OutHandle) : Nat → List Sample → State → List Sample
  | _, [], _ => []
  | i, x :: xs, s => pathSample x (inRead blk i x s) :: blockOutput blk h (i + 1) xs (blockSample blk h i x s)

/-- The whole block filtered, the input released and the output delivered, with the response DONE (R163, R164). -/
def processBlock (blk : InBlock) (h : OutHandle) (s : State) : State :=
  let filtered := blockState blk h 0 blk.samples s
  let out := blockOutput blk h 0 blk.samples s
  respond .ok (codeResult (outcomeCode .done)) (hostDeliver h out (hostRelease blk filtered))

/-- PROCB after an acquire that gave `blk` (R162, R163). -/
def allocateAndProcess (blk : InBlock) (s : State) : Host.Outcome State Fault Refusal :=
  match allocateAnswer s with
  | none => .next (respond .ok (codeResult (outcomeCode .noOutput)) (hostRelease blk (hostAllocate s)))
  | some h => if h.dutyMet then .next (processBlock blk h (hostAllocate s)) else .refused .outputSlots

/-- PROCB (R163). A host that breaks its duty is refused (R166, I2; log entry 7). -/
def execProcb (s : State) : Host.Outcome State Fault Refusal :=
  match acquireAnswer s with
  | none => .next (respond .ok (codeResult (outcomeCode .noInput)) (hostAcquire s))
  | some blk => if blk.dutyMet then allocateAndProcess blk (hostAcquire s) else .refused .blockLength

end Sys2Proof.Machine
end

