-- ==== Sys2Proof/Machine/Configure.lean ====
section
/-! DEFINITION. CONFIG (R104, R105). -/

namespace Sys2Proof.Machine

/-- CONFIG (R104): COEF from the ROM; the history is left as it is. Never rejects (R105). -/
def execConfig (cutoff rate : Word) (s : State) : Host.Outcome State Fault Refusal :=
  .next (respond .ok 0#32 (writeCoef (coefRom cutoff rate) s))

end Sys2Proof.Machine
end

