-- ==== Sys2Proof/Machine/Control.lean ====
section
/-! DEFINITION. NOP and the read-back commands (R180-R184). -/

namespace Sys2Proof.Machine

/-- NOP (R180). -/
def execNop (s : State) : Host.Outcome State Fault Refusal := .next (respond .ok 0#32 s)

/-- RDCOEF (R182): the pattern unchanged (R181). -/
def execRdcoef (s : State) : Host.Outcome State Fault Refusal := .next (respond .ok s.coef s)

/-- RDPIN (R183): the pattern unchanged (R181). -/
def execRdpin (s : State) : Host.Outcome State Fault Refusal := .next (respond .ok s.prevIn s)

/-- RDPOUT (R184): the pattern unchanged (R181). -/
def execRdpout (s : State) : Host.Outcome State Fault Refusal := .next (respond .ok s.prevOut s)

end Sys2Proof.Machine
end

