-- ==== Sys2Proof/Machine/FilterCore.lean ====
section
/-! DEFINITION. PROCF and RESET (R124, R126). -/

namespace Sys2Proof.Machine

/-- RESET (R126): both history registers become +0.0; COEF is left as it is. -/
def execReset (s : State) : Host.Outcome State Fault Refusal :=
  .next (respond .ok 0#32 (writePrevOut plusZero (writePrevIn plusZero s)))

/-- PROCF (R124): one call of the recurrence, its y returned unquantized. -/
def execProcf (x : Word) (s : State) : Host.Outcome State Fault Refusal :=
  .next (respond .ok (recurrence x s) (processSample x s))

end Sys2Proof.Machine
end

