-- ==== Sys2Proof/Machine/SamplePath.lean ====
section
/-! DEFINITION. PROCS and QUANT (R145, R146). -/

namespace Sys2Proof.Machine

/-- PROCS (R145): one sample through the whole path; PREV_OUT keeps the unquantized y. -/
def execProcs (x : Sample) (s : State) : Host.Outcome State Fault Refusal :=
  .next (respond .ok (sampleResult (pathSample x s)) (pathState x s))

/-- QUANT (R146): the quantizer alone; no register is read or written. -/
def execQuant (y : Word) (s : State) : Host.Outcome State Fault Refusal :=
  .next (respond .ok (sampleResult (quantized y s)) (takeDraw y s))

end Sys2Proof.Machine
end

