-- ==== Sys2Proof/Machine/Dispatch.lean ====
section
/-! DEFINITION. One arm per command, each a direct call of its meaning. -/

namespace Sys2Proof.Machine

def exec (i : Instr) (s : State) : Host.Outcome State Fault Refusal :=
  match i with
  | .nop => Sys2Proof.Machine.execNop s
  | .config cutoff rate => Sys2Proof.Machine.execConfig cutoff rate s
  | .reset => Sys2Proof.Machine.execReset s
  | .procf x => Sys2Proof.Machine.execProcf x s
  | .procs x => Sys2Proof.Machine.execProcs x s
  | .quant y => Sys2Proof.Machine.execQuant y s
  | .procb => Sys2Proof.Machine.execProcb s
  | .rdcoef => Sys2Proof.Machine.execRdcoef s
  | .rdpin => Sys2Proof.Machine.execRdpin s
  | .rdpout => Sys2Proof.Machine.execRdpout s

end Sys2Proof.Machine
end

