-- ==== Sys2Proof/WellFormed.lean ====
section
/-! DEFINITION. Which command words are legal (R61). Every term of `Instr` is well formed by its types: each operand field
has exactly the width the spec gives it, so the only check on syntax is the one on the command word. -/

namespace Sys2Proof

/-- A command is legal when RSV = CMD[31:4] is zero and OP = CMD[3:0] is one of 0x0 to 0x9 (R61). The operand words never
make a command illegal (R62, R105). -/
def Command.legal (c : Command) : Bool :=
  c.cmd.extractLsb' 4 28 == 0#28 && decide ((c.cmd.extractLsb' 0 4).toNat ≤ 9)

end Sys2Proof
end

