-- ==== Sys2Proof/Decode.lean ====
section
/-! DEFINITION. The decoder of R69, total on every command, and the encoder written from R61, R62 and R64 with the
assembler's operand rule of R70 (an unused operand word is zero; A[31:16] of PROCS is the sign extension). -/

namespace Sys2Proof

/-- Why a command is illegal (R67). -/
inductive Illegal where
  /-- RSV = CMD[31:4] is not zero, whatever the opcode (R67). -/
  | reservedBits
  /-- RSV is zero and OP is in 0xA-0xF (R67). -/
  | reservedOpcode (op : BitVec 4)
  deriving DecidableEq, Repr

/-- The OP field, CMD[3:0] (R61). -/
def opField (cmd : Word) : BitVec 4 := cmd.extractLsb' 0 4

/-- The RSV field, CMD[31:4] (R61). -/
def rsvField (cmd : Word) : BitVec 28 := cmd.extractLsb' 4 28

/-- The int16 operand of PROCS, A[15:0]; A[31:16] is not read (R65). -/
def sampleField (a : Word) : Sample := a.extractLsb' 0 16

/-- The decoding function of R69 with the operands of R62. -/
def decode (c : Command) : Except Illegal Instr :=
  if rsvField c.cmd ≠ 0#28 then .error .reservedBits
  else match (opField c.cmd).toNat with
    | 0 => .ok .nop
    | 1 => .ok (.config c.a c.b)
    | 2 => .ok .reset
    | 3 => .ok (.procf c.a)
    | 4 => .ok (.procs (sampleField c.a))
    | 5 => .ok (.quant c.a)
    | 6 => .ok .procb
    | 7 => .ok .rdcoef
    | 8 => .ok .rdpin
    | 9 => .ok .rdpout
    | _ => .error (.reservedOpcode (opField c.cmd))

/-- The CMD pattern column of the opcode map (R64). -/
def opcodeWord : Instr → Word
  | .nop => 0x00000000#32
  | .config _ _ => 0x00000001#32
  | .reset => 0x00000002#32
  | .procf _ => 0x00000003#32
  | .procs _ => 0x00000004#32
  | .quant _ => 0x00000005#32
  | .procb => 0x00000006#32
  | .rdcoef => 0x00000007#32
  | .rdpin => 0x00000008#32
  | .rdpout => 0x00000009#32

/-- Operand word A as the assembler writes it (R62, R70). -/
def operandA : Instr → Word
  | .nop => 0#32
  | .config cutoff _ => cutoff
  | .reset => 0#32
  | .procf x => x
  | .procs x => x.signExtend 32
  | .quant y => y
  | .procb => 0#32
  | .rdcoef => 0#32
  | .rdpin => 0#32
  | .rdpout => 0#32

/-- Operand word B as the assembler writes it (R62, R70). -/
def operandB : Instr → Word
  | .nop => 0#32
  | .config _ rate => rate
  | .reset => 0#32
  | .procf _ => 0#32
  | .procs _ => 0#32
  | .quant _ => 0#32
  | .procb => 0#32
  | .rdcoef => 0#32
  | .rdpin => 0#32
  | .rdpout => 0#32

/-- The three words of an instruction (R60, R64, R70). -/
def encode (i : Instr) : Command := ⟨opcodeWord i, operandA i, operandB i⟩

/-- A command from one number whose bits 31..0 are CMD, 63..32 are A and 95..64 are B, every bit at or above `nbits` being
zero (the opcode table numbers the first word's bits first; log entry 10). -/
def tableCommand (nbits w : Nat) : Command :=
  let v := w % 2 ^ nbits
  ⟨BitVec.ofNat 32 v, BitVec.ofNat 32 (v / 2 ^ 32), BitVec.ofNat 32 (v / 2 ^ 64)⟩

/-- What the decoder reads from a command numbered as spec/opcode_table.json numbers it. -/
def decodeTableWord (nbits w : Nat) : Option Instr :=
  match decode (tableCommand nbits w) with
  | .ok i => some i
  | .error _ => none

end Sys2Proof
end

