-- ==== Sys2Proof/Machine/Port.lean ====
section
/-! DEFINITION. The command port: what the engine takes from the host at a step (R40, R220, R223). The engine has no program
counter and fetches nothing (R26, R53); "fetching" here is taking the host's next entry. -/

namespace Sys2Proof.Machine

/-- What one step has to do. -/
inductive Taken where
  /-- Run this instruction in this state. -/
  | run (i : Instr) (s : State)
  /-- The step is complete with this state. -/
  | complete (s : State)
  /-- The spec tells a model to refuse the run. -/
  | stop (r : Refusal)
  deriving DecidableEq, Repr

/-- The state in which a command runs: its host answers stand in the state (R37). -/
def latch (answers : HostAnswers) (rest : List HostInput) (s : State) : State :=
  { s with inputs := rest, answers := answers }

/-- A command at the port: decoded (R69) and run, or reported as illegal before any effect (R185, R203). -/
def takeCommand (c : Command) (s : State) : Taken :=
  match decode c with
  | .ok i => .run i s
  | .error _ => .complete (raiseIllegal s)

/-- The host's next entry. With none the engine is idle and its registers hold (R212, R222; log entry 1). -/
def fetch (s : State) : Taken :=
  match s.inputs with
  | [] => .complete s
  | .command c answers :: rest => takeCommand c (latch answers rest s)
  | .engineReset :: rest => .complete (engineReset { s with inputs := rest })
  | .overlap _ _ :: _ => .stop .commandOverlap
  | .changeHeldBlock _ :: _ => .stop .heldBlockChanged
  | .resetDuring _ :: _ => .stop .resetDuringCommand

/-- The state with a command placed as the host's next one, with the answers that stand in the state. -/
def placeCommand (c : Command) (s : State) : State := { s with inputs := .command c s.answers :: s.inputs }

end Sys2Proof.Machine
end

