-- ==== Sys2Proof/Machine/Step.lean ====
section
/-! DEFINITION. One step: one command of the host, completed and answered (R40, R41). -/

namespace Sys2Proof.Machine

/-- One atomic transition (R41). -/
def step (s : State) : Host.Outcome State Fault Refusal :=
  match fetch s with
  | .run i t => exec i t
  | .complete t => .next t
  | .stop r => .refused r

/-- The state with the command numbered `w` placed where `step` takes its next command. -/
def State.withFetchWord (s : State) (nbits w : Nat) : State := placeCommand (tableCommand nbits w) s

end Sys2Proof.Machine
end

