-- ==== Sys2Proof/Machine/Assembler.lean ====
section
/-! DEFINITION. The assembler of R70 and the pseudo-instructions of R71, from a line of text to the command words. It has no
effect on the engine (D20). The spelling details that R70 leaves open are log entry 13. -/

namespace Sys2Proof.Machine

/-- An `<f32>` operand (R70). -/
inductive F32Literal where
  /-- A decimal literal: its sign and its magnitude digits × 10^shift / 10^scale. -/
  | decimal (neg : Bool) (digits shift scale : Nat)
  /-- `inf`, `+inf` or `-inf`. -/
  | inf (neg : Bool)
  /-- `nan`. -/
  | nan
  /-- `#0xHHHHHHHH`, taken as is. -/
  | raw (w : Word)
  deriving DecidableEq, Repr

/-- An `<i16>` operand (R70). -/
inductive I16Literal where
  /-- A decimal integer. -/
  | decimal (v : Int)
  /-- `#0xHHHH`. -/
  | raw (v : Sample)
  deriving DecidableEq, Repr

/-- One line of assembly: the ten commands (R70) and the three pseudo-instructions (R71). -/
inductive AsmLine where
  | nop
  | config (cutoff rate : F32Literal)
  | reset
  | procf (x : F32Literal)
  | procs (x : I16Literal)
  | quant (y : F32Literal)
  | procb
  | rdcoef
  | rdpin
  | rdpout
  | init
  | reconf (cutoff rate : F32Literal)
  | procsEach (xs : List I16Literal)
  deriving DecidableEq, Repr

/-- Why a line does not assemble (R70: "an assembly error, not an encoding"). -/
inductive AsmError where
  /-- The mnemonic is none of R70 and R71. -/
  | unknownMnemonic
  /-- The mnemonic does not take this many operands. -/
  | operandCount
  /-- An operand is none of the forms of R70. -/
  | badOperand
  /-- An `<i16>` decimal outside [-32768, 32767]. -/
  | outOfRange
  deriving DecidableEq, Repr

/-- The pattern of an `<f32>` operand: a decimal through `round32`, its sign kept on a zero too (R70, E4). -/
def F32Literal.toWord : F32Literal → Word
  | .decimal neg digits shift scale => roundRational neg (digits * 10 ^ shift) (10 ^ scale)
  | .inf neg => pack neg 0x7F800000
  | .nan => canonicalNaN
  | .raw w => w

/-- The sample of an `<i16>` operand, an error when it is out of range (R70). -/
def I16Literal.toSample : I16Literal → Except AsmError Sample
  | .decimal v => if -32768 ≤ v ∧ v ≤ 32767 then .ok (BitVec.ofInt 16 v) else .error .outOfRange
  | .raw v => .ok v

/-- One PROCS per operand, in order (R71). -/
def expandProcs : List I16Literal → Except AsmError (List Instr)
  | [] => .ok []
  | x :: xs =>
    match x.toSample, expandProcs xs with
    | .ok v, .ok is => .ok (.procs v :: is)
    | .error e, _ => .error e
    | _, .error e => .error e

/-- The instructions of a line (R70, R71). -/
def AsmLine.expand : AsmLine → Except AsmError (List Instr)
  | .nop => .ok [.nop]
  | .config cutoff rate => .ok [.config cutoff.toWord rate.toWord]
  | .reset => .ok [.reset]
  | .procf x => .ok [.procf x.toWord]
  | .procs x => expandProcs [x]
  | .quant y => .ok [.quant y.toWord]
  | .procb => .ok [.procb]
  | .rdcoef => .ok [.rdcoef]
  | .rdpin => .ok [.rdpin]
  | .rdpout => .ok [.rdpout]
  | .init => .ok [.config fcDefault fsDefault, .reset]
  | .reconf cutoff rate => .ok [.config cutoff.toWord rate.toWord, .reset]
  | .procsEach xs => expandProcs xs

/-- A blank: a space or a tab. -/
def isBlank (c : Char) : Bool := c == ' ' || c == '\t'

/-- The text without blanks at either end. -/
def trimBlanks (cs : List Char) : List Char := ((cs.dropWhile isBlank).reverse.dropWhile isBlank).reverse

/-- The pieces of the text between the separators `sep`. -/
def splitAt (sep : Char) : List Char → List (List Char)
  | [] => [[]]
  | c :: cs =>
    match splitAt sep cs with
    | [] => [[c]]
    | p :: ps => if c == sep then [] :: p :: ps else (c :: p) :: ps

/-- The value of a hexadecimal digit, of either case. -/
def hexValue (c : Char) : Option Nat :=
  if '0' ≤ c ∧ c ≤ '9' then some (c.toNat - 48)
  else if 'A' ≤ c ∧ c ≤ 'F' then some (c.toNat - 55)
  else if 'a' ≤ c ∧ c ≤ 'f' then some (c.toNat - 87)
  else none

/-- The value of a digit string below `base`, most significant first, after the value `acc`. -/
def digitsFrom (base : Nat) : Nat → List Char → Option Nat
  | acc, [] => some acc
  | acc, c :: cs =>
    match hexValue c with
    | some v => if v < base then digitsFrom base (acc * base + v) cs else none
    | none => none

/-- The value of a digit string that is not empty. -/
def digits (base : Nat) (cs : List Char) : Option Nat := if cs = [] then none else digitsFrom base 0 cs

/-- A raw pattern `#0x` with exactly `n` hexadecimal digits (R70). DESIGN CHOICE, log entry 13: a small `x`, and digits of
either case. -/
def rawPattern (n : Nat) : List Char → Option Nat
  | '#' :: '0' :: 'x' :: cs => if cs.length = n then digits 16 cs else none
  | _ => none

/-- A text without its leading minus sign, and whether it had one. -/
def takeMinus : List Char → Bool × List Char
  | '-' :: cs => (true, cs)
  | cs => (false, cs)

/-- The exponent after `e`: an optional sign and digits. -/
def exponent : List Char → Option (Bool × Nat)
  | '-' :: cs => (digits 10 cs).map fun v => (true, v)
  | '+' :: cs => (digits 10 cs).map fun v => (false, v)
  | cs => (digits 10 cs).map fun v => (false, v)

/-- The digits of a decimal literal without sign and exponent, and how many of them stand after the point. -/
def mantissa (cs : List Char) : Option (Nat × Nat) :=
  match splitAt '.' cs with
  | [whole] => (digits 10 whole).map fun v => (v, 0)
  | [whole, frac] =>
    match digits 10 whole, digits 10 frac with
    | some _, some _ => (digits 10 (whole ++ frac)).map fun v => (v, frac.length)
    | _, _ => none
  | _ => none

/-- A decimal literal such as `60`, `60.0` or `-1.5e3` (R70). DESIGN CHOICE, log entry 13: the letter of the exponent is a
small `e` only, so `1.5E3` is an error; the optional signs and the digits on both sides of a point are chosen there too. -/
def parseDecimal (cs : List Char) : Option F32Literal :=
  let signed := takeMinus cs
  match splitAt 'e' signed.2 with
  | [m] => (mantissa m).map fun v => .decimal signed.1 v.1 0 v.2
  | [m, e] =>
    match mantissa m, exponent e with
    | some v, some (true, k) => some (.decimal signed.1 v.1 0 (v.2 + k))
    | some v, some (false, k) => some (.decimal signed.1 v.1 k v.2)
    | _, _ => none
  | _ => none

/-- An `<f32>` operand (R70). -/
def parseF32 (cs : List Char) : Except AsmError F32Literal :=
  if cs = ['i', 'n', 'f'] ∨ cs = ['+', 'i', 'n', 'f'] then .ok (.inf false)
  else if cs = ['-', 'i', 'n', 'f'] then .ok (.inf true)
  else if cs = ['n', 'a', 'n'] then .ok .nan
  else match rawPattern 8 cs with
    | some v => .ok (.raw (BitVec.ofNat 32 v))
    | none =>
      match parseDecimal cs with
      | some l => .ok l
      | none => .error .badOperand

/-- An `<i16>` operand (R70). -/
def parseI16 (cs : List Char) : Except AsmError I16Literal :=
  match rawPattern 4 cs with
  | some v => .ok (.raw (BitVec.ofNat 16 v))
  | none =>
    let signed := takeMinus cs
    match digits 10 signed.2 with
    | some v => .ok (.decimal (if signed.1 then -(v : Int) else (v : Int)))
    | none => .error .badOperand

/-- A list of `<i16>` operands (R71). -/
def parseI16s : List (List Char) → Except AsmError (List I16Literal)
  | [] => .ok []
  | c :: cs =>
    match parseI16 c, parseI16s cs with
    | .ok x, .ok xs => .ok (x :: xs)
    | .error e, _ => .error e
    | _, .error e => .error e

/-- A line that takes no operand. -/
def parseNone (line : AsmLine) (ops : List (List Char)) : Except AsmError AsmLine :=
  if ops = [] then .ok line else .error .operandCount

/-- A line that takes one `<f32>`. -/
def parseOne (make : F32Literal → AsmLine) : List (List Char) → Except AsmError AsmLine
  | [x] => (parseF32 x).map make
  | _ => .error .operandCount

/-- A line that takes two `<f32>`. -/
def parseTwo (make : F32Literal → F32Literal → AsmLine) : List (List Char) → Except AsmError AsmLine
  | [x, y] =>
    match parseF32 x, parseF32 y with
    | .ok a, .ok b => .ok (make a b)
    | .error e, _ => .error e
    | _, .error e => .error e
  | _ => .error .operandCount

/-- A line from its mnemonic and operands (R70, R71). -/
def parseOperands (mnemonic : List Char) (ops : List (List Char)) : Except AsmError AsmLine :=
  if mnemonic = ['N', 'O', 'P'] then parseNone .nop ops
  else if mnemonic = ['C', 'O', 'N', 'F', 'I', 'G'] then parseTwo .config ops
  else if mnemonic = ['R', 'E', 'S', 'E', 'T'] then parseNone .reset ops
  else if mnemonic = ['P', 'R', 'O', 'C', 'F'] then parseOne .procf ops
  else if mnemonic = ['P', 'R', 'O', 'C', 'S'] then
    match ops with
    | [x] => (parseI16 x).map .procs
    | _ => .error .operandCount
  else if mnemonic = ['Q', 'U', 'A', 'N', 'T'] then parseOne .quant ops
  else if mnemonic = ['P', 'R', 'O', 'C', 'B'] then parseNone .procb ops
  else if mnemonic = ['R', 'D', 'C', 'O', 'E', 'F'] then parseNone .rdcoef ops
  else if mnemonic = ['R', 'D', 'P', 'I', 'N'] then parseNone .rdpin ops
  else if mnemonic = ['R', 'D', 'P', 'O', 'U', 'T'] then parseNone .rdpout ops
  else if mnemonic = ['I', 'N', 'I', 'T'] then parseNone .init ops
  else if mnemonic = ['R', 'E', 'C', 'O', 'N', 'F'] then parseTwo .reconf ops
  else if mnemonic = ['P', 'R', 'O', 'C', 'S', '*'] then
    if ops = [] then .error .operandCount else (parseI16s ops).map .procsEach
  else .error .unknownMnemonic

/-- The operands of a line: the text after the mnemonic, separated by commas. -/
def operandTexts (cs : List Char) : List (List Char) :=
  if trimBlanks cs = [] then [] else (splitAt ',' cs).map trimBlanks

/-- One line: mnemonic first, operands separated by commas, `;` starts a comment (R70). An empty line has no command. -/
def parseLine (cs : List Char) : Except AsmError (Option AsmLine) :=
  let body := trimBlanks (cs.takeWhile fun c => c != ';')
  if body = [] then .ok none
  else
    (parseOperands (body.takeWhile fun c => !isBlank c) (operandTexts (body.dropWhile fun c => !isBlank c))).map some

/-- The commands of one line of text, in order (R70, R71). -/
def assemble (cs : List Char) : Except AsmError (List Command) :=
  match parseLine cs with
  | .error e => .error e
  | .ok none => .ok []
  | .ok (some line) => line.expand.map fun is => is.map encode

end Sys2Proof.Machine
end

