-- ==== Sys2Proof/Safety.lean ====
section
/-! DEFINITION. The terms in which claims are stated: correct rounding (R11), the invariant INV of R148, the legal values of
the registers and of the trace in every state (R21, R44, R45, D8), a sequence of commands (R230) and the history of R46. -/

namespace Sys2Proof.Machine

/-- `w` is the finite binary32 nearest to the real `r`, ties to even (R11): no finite value is nearer, and where another
value is as near, the pattern of `w` is the even one. -/
def NearestEven (w : Word) (r : ℝ) : Prop :=
  isFinite w = true ∧
  ∀ v : Word, isFinite v = true →
    |((real w : ℚ) : ℝ) - r| ≤ |((real v : ℚ) : ℝ) - r| ∧
    (|((real w : ℚ) : ℝ) - r| = |((real v : ℚ) : ℝ) - r| → real v ≠ real w → w.toNat % 2 = 0)

/-- The least magnitude that round32 takes to infinity: halfway between the largest finite binary32 and 2^128 (R11, "the
usual overflow"). -/
def overflowBound : ℝ := 2 ^ 128 - 2 ^ 103

/-- The integer part of a rational, toward zero: `trunc` of R11. -/
def truncRat (r : ℚ) : Int := if 0 ≤ r then ⌊r⌋ else ⌈r⌉

/-- (i) of INV: COEF is not NaN and 0 <= real(COEF) <= 1 (R148). -/
def InvCoef (w : Word) : Prop := isFinite w = true ∧ 0 ≤ real w ∧ real w ≤ 1

/-- (ii) of INV: PREV_IN is an integer in [-32768, 32767] (R148; log entry 12 for -0.0). -/
def InvPrevIn (w : Word) : Prop := isFinite w = true ∧ ∃ n : Int, real w = n ∧ -32768 ≤ n ∧ n ≤ 32767

/-- (iii) of INV: PREV_OUT is not NaN and |real(PREV_OUT)| <= 2^42 (R148). -/
def InvPrevOut (w : Word) : Prop := isFinite w = true ∧ |real w| ≤ 2 ^ 42

/-- The invariant INV of R148. -/
def Inv (s : State) : Prop := InvCoef s.coef ∧ InvPrevIn s.prevIn ∧ InvPrevOut s.prevOut

/-- The instructions that R148 says preserve INV: all but PROCF, and CONFIG only when neither operand is NaN and the two are
not both +infinity. -/
def integerPath : Instr → Prop
  | .nop => True
  | .config cutoff rate =>
    isNaN cutoff = false ∧ isNaN rate = false ∧ ¬(cutoff = 0x7F800000#32 ∧ rate = 0x7F800000#32)
  | .reset => True
  | .procf _ => False
  | .procs _ => True
  | .quant _ => True
  | .procb => True
  | .rdcoef => True
  | .rdpin => True
  | .rdpout => True

/-- A host input that brings no instruction outside the integer path. -/
def integerInput : HostInput → Prop
  | .command c _ => ∀ i, decode c = .ok i → integerPath i
  | .engineReset => True
  | .overlap _ _ => True
  | .changeHeldBlock _ => True
  | .resetDuring _ => True

/-- A state that meets INV and in which the host will issue integer-path commands only. -/
def IntegerRun (s : State) : Prop := Inv s ∧ ∀ x ∈ s.inputs, integerInput x

/-- Every value COEF can hold: a pattern from +0.0 to 1.0, or the NaN 0x7FC00000 (R21, R34, R103, R106 (c)). -/
def LegalCoef (w : Word) : Prop := w.toNat ≤ 0x3F800000 ∨ w = canonicalNaN

/-- A NaN in PREV_OUT is the NaN that the primitives produce (R11, D8). -/
def LegalPrevOut (w : Word) : Prop := isNaN w = true → w = canonicalNaN

/-- The block port's limits: every index is below BLOCK_LEN (R44), and a delivered block has all its BLOCK_LEN samples
(R50 (d)). -/
def LegalEvent : Event → Prop
  | .acquire _ => True
  | .allocate _ => True
  | .inRead _ i _ => i < Config.blockLen
  | .outWrite _ i _ => i < Config.blockLen
  | .release _ => True
  | .deliver _ samples => samples.length = Config.blockLen

/-- What every step keeps, whatever the host issues. -/
def Legal (s : State) : Prop :=
  LegalCoef s.coef ∧ LegalPrevOut s.prevOut ∧ ∀ e ∈ s.trace, LegalEvent e

/-- The host-primitive calls of R46, as opposed to the sample reads and writes. -/
def Event.isHostCall : Event → Bool
  | .acquire _ => true
  | .allocate _ => true
  | .inRead _ _ _ => false
  | .outWrite _ _ _ => false
  | .release _ => true
  | .deliver _ _ => true

/-- The event history of R46. -/
def State.history (s : State) : List Event := s.trace.filter Event.isHostCall

/-- Instructions run one after another from a state (R230), to the end or to the first refusal. -/
def execAll : List Instr → State → Host.Outcome State Fault Refusal
  | [], s => .next s
  | i :: is, s =>
    match exec i s with
    | .next t => execAll is t
    | .fault r => .fault r
    | .refused r => .refused r

/-- What R230 observes of a state besides its event history: COEF, PREV_IN, PREV_OUT and the responses. -/
def observation : Host.Outcome State Fault Refusal → Option (Word × Word × Word × List Response)
  | .next s => some (s.coef, s.prevIn, s.prevOut, s.responses)
  | .fault _ => none
  | .refused _ => none

/-- The host's duties of R166 as one command can meet them: an acquired block has BLOCK_LEN samples and an allocated one
has BLOCK_LEN slots. -/
def DutiesMet (s : State) : Prop :=
  (∀ blk, s.answers.acquire = some blk → blk.samples.length = Config.blockLen) ∧
  (∀ h, s.answers.allocate = some h → Config.blockLen ≤ h.slots)

/-- The sample reads and writes of a block, the samples `xs` read and the samples `qs` written at the indices from `i` on
(R45, R50 (c)). -/
def sampleEvents (blk : InBlock) (h : OutHandle) : Nat → List Sample → List Sample → List Event
  | i, x :: xs, q :: qs => .inRead blk.handle i x :: .outWrite h.handle i q :: sampleEvents blk h (i + 1) xs qs
  | _, [], _ => []
  | _, _ :: _, [] => []

end Sys2Proof.Machine
end

