-- ==== Sys2Proof/Certificates/Slice0/Obligations.lean ====
section
/-! DEFINITION. The statements for the provers, each from the rules its docstring names. -/

open Sys2Proof Sys2Proof.Machine

/-! ### Encoding -/

/-- 30_encoding.md §2 (R64): the word of each row of the opcode map, written out from the OP and RSV fields of §1 (R61),
decodes to the row's command with its operand words read as R62 says; a reserved opcode and a set reserved bit are illegal
(§4, R67). The numbers are laid out as the opcode table numbers a command's bits, CMD lowest, then A, then B: the 64-bit and
96-bit ones rest on log entry 10 (DEDUCED). A sanity statement on fixed words. -/
def Obligations.OpcodeWordsDecode : Prop :=
  decodeTableWord 32 0x00000000 = some .nop ∧
  decodeTableWord 96 0x472C44004270000000000001 = some (.config 0x42700000#32 0x472C4400#32) ∧
  decodeTableWord 32 0x00000002 = some .reset ∧
  decodeTableWord 64 0x447A000000000003 = some (.procf 0x447A0000#32) ∧
  decodeTableWord 64 0x123480E800000004 = some (.procs 0x80E8#16) ∧
  decodeTableWord 64 0xCE6E6B2800000005 = some (.quant 0xCE6E6B28#32) ∧
  decodeTableWord 32 0x00000006 = some .procb ∧
  decodeTableWord 32 0x00000007 = some .rdcoef ∧
  decodeTableWord 32 0x00000008 = some .rdpin ∧
  decodeTableWord 32 0x00000009 = some .rdpout ∧
  decodeTableWord 32 0x0000000A = none ∧
  decodeTableWord 32 0x80000001 = none

/-- R62, R69: the decoding function on every command, with the operand bits each command reads and ignores. -/
def Obligations.DecodeIsTheOpcodeMap : Prop :=
  ∀ cmd a b : Word,
    (cmd.extractLsb' 4 28 ≠ 0#28 → decode ⟨cmd, a, b⟩ = .error .reservedBits) ∧
    (cmd.extractLsb' 4 28 = 0#28 →
      decode ⟨cmd, a, b⟩ =
        if cmd.extractLsb' 0 4 = 0x0#4 then .ok .nop
        else if cmd.extractLsb' 0 4 = 0x1#4 then .ok (.config a b)
        else if cmd.extractLsb' 0 4 = 0x2#4 then .ok .reset
        else if cmd.extractLsb' 0 4 = 0x3#4 then .ok (.procf a)
        else if cmd.extractLsb' 0 4 = 0x4#4 then .ok (.procs (a.extractLsb' 0 16))
        else if cmd.extractLsb' 0 4 = 0x5#4 then .ok (.quant a)
        else if cmd.extractLsb' 0 4 = 0x6#4 then .ok .procb
        else if cmd.extractLsb' 0 4 = 0x7#4 then .ok .rdcoef
        else if cmd.extractLsb' 0 4 = 0x8#4 then .ok .rdpin
        else if cmd.extractLsb' 0 4 = 0x9#4 then .ok .rdpout
        else .error (.reservedOpcode (cmd.extractLsb' 0 4)))

/-- R61: a command is legal when OP is one of 0x0 to 0x9 and RSV = 0, in mask/match form when the whole of CMD is a number
from 0 to 9, and exactly the legal commands decode. -/
def Obligations.LegalCommandsAreTheDecodedOnes : Prop :=
  ∀ c : Command,
    (c.legal = true ↔ c.cmd.extractLsb' 4 28 = 0#28 ∧ (c.cmd.extractLsb' 0 4).toNat ≤ 9) ∧
    (c.legal = true ↔ ∃ op : Nat, op ≤ 9 ∧ c.cmd &&& 0xFFFFFFFF#32 = BitVec.ofNat 32 op) ∧
    (c.legal = true ↔ ∃ i, decode c = .ok i)

/-- 30_encoding.md §1 to §3: decoding what was encoded gives the instruction back with every operand at every value; the
encoded command is legal; and every command that decodes to an instruction has that instruction's command word and agrees
with its encoding in every operand bit that R62 says is read. -/
def Obligations.DecodeEncodeAgree : Prop :=
  ∀ i : Instr,
    decode (encode i) = .ok i ∧ (encode i).legal = true ∧
    ∀ c : Command, decode c = .ok i →
      c.cmd = (encode i).cmd ∧
      match i with
      | .nop => True
      | .config _ _ => c.a = (encode i).a ∧ c.b = (encode i).b
      | .reset => True
      | .procf _ => c.a = (encode i).a
      | .procs _ => c.a.extractLsb' 0 16 = (encode i).a.extractLsb' 0 16
      | .quant _ => c.a = (encode i).a
      | .procb => True
      | .rdcoef => True
      | .rdpin => True
      | .rdpout => True

/-- R71: the three pseudo-instructions by name and their expansions; after INIT the registers are those of the engine
reset; and no mnemonic but theirs and those of the ten commands of R70 assembles. That a mnemonic is one of the thirteen
only in the letter case that R70 and R71 write, so that `init` and `nop` in small letters are refused too, is the model's
choice (log entry 13). -/
def Obligations.PseudoInstructionsExpand : Prop :=
  (parseOperands ['I', 'N', 'I', 'T'] [] = .ok .init ∧
    AsmLine.init.expand = .ok [.config 0x42700000#32 0x472C4400#32, .reset]) ∧
  (∀ (fc fs : List Char) (u v : F32Literal), parseF32 fc = .ok u → parseF32 fs = .ok v →
    parseOperands ['R', 'E', 'C', 'O', 'N', 'F'] [fc, fs] = .ok (.reconf u v) ∧
    (AsmLine.reconf u v).expand = .ok [.config u.toWord v.toWord, .reset]) ∧
  (∀ (ops : List (List Char)) (ls : List I16Literal) (xs : List Sample), ops ≠ [] → parseI16s ops = .ok ls →
    ls.map I16Literal.toSample = xs.map .ok →
    parseOperands ['P', 'R', 'O', 'C', 'S', '*'] ops = .ok (.procsEach ls) ∧
    (AsmLine.procsEach ls).expand = .ok (xs.map .procs)) ∧
  (∀ (m : List Char) (ops : List (List Char)),
    m ∉ [['N', 'O', 'P'], ['C', 'O', 'N', 'F', 'I', 'G'], ['R', 'E', 'S', 'E', 'T'], ['P', 'R', 'O', 'C', 'F'],
      ['P', 'R', 'O', 'C', 'S'], ['Q', 'U', 'A', 'N', 'T'], ['P', 'R', 'O', 'C', 'B'], ['R', 'D', 'C', 'O', 'E', 'F'],
      ['R', 'D', 'P', 'I', 'N'], ['R', 'D', 'P', 'O', 'U', 'T'], ['I', 'N', 'I', 'T'], ['R', 'E', 'C', 'O', 'N', 'F'],
      ['P', 'R', 'O', 'C', 'S', '*']] → parseOperands m ops = .error .unknownMnemonic) ∧
  ∀ s : State, ∃ t, execAll [.config 0x42700000#32 0x472C4400#32, .reset] s = .next t ∧
    t.coef = State.reset.coef ∧ t.prevIn = State.reset.prevIn ∧ t.prevOut = State.reset.prevOut

/-- 30_encoding.md §5: a decimal int16 operand assembles to the sample of that value, its sign extension in A, and one
outside [-32768, 32767] is an assembly error. -/
def Obligations.AssembledSampleIsItsLiteral : Prop :=
  ∀ v : Int,
    (-32768 ≤ v → v ≤ 32767 → ∃ x : Sample,
      (AsmLine.procs (.decimal v)).expand = .ok [.procs x] ∧ x.toInt = v ∧
      (encode (.procs x)).a.toInt = v ∧ (encode (.procs x)).b = 0#32) ∧
    (v < -32768 ∨ 32767 < v → (AsmLine.procs (.decimal v)).expand = .error .outOfRange)

/-! ### The step -/

/-- 20_memory.md §1: a step takes the host's next command, decodes it and is that instruction's meaning, in the state where
the command is taken and the host's answers stand. -/
def Obligations.StepRunsTheDecodedCommand : Prop :=
  ∀ (s : State) (c : Command) (ans : HostAnswers) (rest : List HostInput) (i : Instr),
    s.inputs = .command c ans :: rest → decode c = .ok i →
    step s = exec i { s with inputs := rest, answers := ans }

/-- The model's choice (log entry 1, 15): with nothing issued the engine is idle and its state holds, as 60_exceptions.md
§3 says of it between commands. -/
def Obligations.IdleStepHoldsTheState : Prop :=
  ∀ s : State, s.inputs = [] → step s = .next s

/-- R67, R185: a command with RSV not zero or OP in 0xA-0xF responds (ILLEGAL, 0) and does nothing else; the three worked
examples of R185 are such commands. -/
def Obligations.IllegalCommandOnlyResponds : Prop :=
  (∀ (s : State) (c : Command) (ans : HostAnswers) (rest : List HostInput),
    s.inputs = .command c ans :: rest →
    (c.cmd.extractLsb' 4 28 ≠ 0#28 ∨ 10 ≤ (c.cmd.extractLsb' 0 4).toNat) →
    step s = .next { s with
      inputs := rest, answers := ans, responses := s.responses ++ [⟨.illegal, 0x00000000#32⟩] }) ∧
  ∀ cmd ∈ [0x00000016#32, 0x0000000A#32, 0x80000001#32],
    cmd.extractLsb' 4 28 ≠ 0#28 ∨ 10 ≤ (cmd.extractLsb' 0 4).toNat

/-- R35, R220, R221: the engine reset between commands sets COEF to ROM(60.0, 44100.0) = 0x3F7DD483 and the history to +0.0,
leaves the event history empty (R221) and adds no response. That the whole trace is emptied, the sample reads and writes
too, and that the host's list goes on with its next entry and its answers stay, is the model's choice (log entry 6). -/
def Obligations.EngineResetConstructs : Prop :=
  ∀ (s : State) (rest : List HostInput), s.inputs = .engineReset :: rest →
    ∃ t, step s = .next t ∧ t.coef = coefRom 0x42700000#32 0x472C4400#32 ∧ t.coef = 0x3F7DD483#32 ∧
      t.prevIn = 0x00000000#32 ∧ t.prevOut = 0x00000000#32 ∧ t.trace = [] ∧
      t.responses <+: s.responses ∧ t.inputs = rest ∧ t.answers = s.answers

/-- R35: the reset values of the three registers, COEF being ROM(60.0, 44100.0). -/
def Obligations.ResetValues : Prop :=
  State.reset.coef = 0x3F7DD483#32 ∧ State.reset.coef = coefRom 0x42700000#32 0x472C4400#32 ∧
  State.reset.prevIn = 0x00000000#32 ∧ State.reset.prevOut = 0x00000000#32

/-- R223: a reset asserted while a command is in progress is refused and given no meaning. -/
def Obligations.ResetDuringCommandRefused : Prop :=
  ∀ (s : State) (c : Command) (rest : List HostInput), s.inputs = .resetDuring c :: rest →
    step s = .refused .resetDuringCommand

/-- 43_block_processor.md §2, 93_implementation_defined.md I2: a run in which the host breaks a duty is refused: an
overlapping command, a block changed while held, a block that has not BLOCK_LEN samples, too few output slots. -/
def Obligations.BrokenDutyRefused : Prop :=
  (∀ (s : State) (c d : Command) (rest : List HostInput), s.inputs = .overlap c d :: rest →
    step s = .refused .commandOverlap) ∧
  (∀ (s : State) (c : Command) (rest : List HostInput), s.inputs = .changeHeldBlock c :: rest →
    step s = .refused .heldBlockChanged) ∧
  (∀ (s : State) (blk : InBlock), s.answers.acquire = some blk → blk.samples.length ≠ Config.blockLen →
    exec .procb s = .refused .blockLength) ∧
  (∀ (s : State) (blk : InBlock) (h : OutHandle), s.answers.acquire = some blk →
    blk.samples.length = Config.blockLen → s.answers.allocate = some h → h.slots < Config.blockLen →
    exec .procb s = .refused .outputSlots)

/-- 70_reset_and_hazards.md §3, 30_encoding.md §1: every command is one step that completes with exactly one response, whose
status bit is 1 exactly when the command is illegal; the host's duties are the only condition, and only for PROCB. -/
def Obligations.EveryCommandCompletesWithOneResponse : Prop :=
  (∀ (i : Instr) (s : State), (i = .procb → DutiesMet s) →
    ∃ t r, exec i s = .next t ∧ t.responses = s.responses ++ [⟨.ok, r⟩]) ∧
  ∀ (s : State) (c : Command) (ans : HostAnswers) (rest : List HostInput),
    s.inputs = .command c ans :: rest → DutiesMet { s with answers := ans } →
    ∃ t r, step s = .next t ∧ t.responses = s.responses ++ [r] ∧
      statusBit r.st = if c.legal then 0#1 else 1#1

/-! ### Commands: what each does when it completes -/

/-- R180: NOP responds (OK, 0) and changes nothing, whatever its operand words hold, so no host primitive is called; with a
reserved bit set it is illegal. -/
def Obligations.NopCompletes : Prop :=
  (∀ a b : Word, decode ⟨0x00000000#32, a, b⟩ = .ok .nop) ∧
  (∀ cmd a b : Word, cmd.extractLsb' 4 28 ≠ 0#28 → decode ⟨cmd, a, b⟩ = .error .reservedBits) ∧
  ∀ s : State, exec .nop s = .next { s with responses := s.responses ++ [⟨.ok, 0x00000000#32⟩] }

/-- R182, R183, R184: a read-back responds with its register's pattern unchanged and changes no state; with the
worked examples and corner cases of the three rules. -/
def Obligations.ReadBacksComplete : Prop :=
  (∀ a b : Word, decode ⟨0x00000007#32, a, b⟩ = .ok .rdcoef ∧ decode ⟨0x00000008#32, a, b⟩ = .ok .rdpin ∧
    decode ⟨0x00000009#32, a, b⟩ = .ok .rdpout) ∧
  (∀ s : State,
    exec .rdcoef s = .next { s with responses := s.responses ++ [⟨.ok, s.coef⟩] } ∧
    exec .rdpin s = .next { s with responses := s.responses ++ [⟨.ok, s.prevIn⟩] } ∧
    exec .rdpout s = .next { s with responses := s.responses ++ [⟨.ok, s.prevOut⟩] }) ∧
  observation (execAll [.rdcoef] State.reset) =
    some (0x3F7DD483#32, 0x00000000#32, 0x00000000#32, [⟨.ok, 0x3F7DD483#32⟩]) ∧
  (∀ (s : State) (fc fs : Word), isNaN fc = true ∨ isNaN fs = true → ∃ t, execAll [.config fc fs, .rdcoef] s = .next t ∧
    t.responses = s.responses ++ [⟨.ok, 0x00000000#32⟩, ⟨.ok, 0x7FC00000#32⟩]) ∧
  (∀ (s : State) (fs : Word), isFinite fs = true → ∃ t, execAll [.config 0x7F800000#32 fs, .rdcoef] s = .next t ∧
    t.responses = s.responses ++ [⟨.ok, 0x00000000#32⟩, ⟨.ok, 0x00000000#32⟩]) ∧
  (∀ s : State, ∃ t r, execAll [.procf 0x80000000#32, .rdpin] s = .next t ∧
    t.responses = s.responses ++ [⟨.ok, r⟩, ⟨.ok, 0x80000000#32⟩]) ∧
  (∀ s : State, ∃ t r, execAll [.procs 1000#16, .rdpin] s = .next t ∧
    t.responses = s.responses ++ [⟨.ok, r⟩, ⟨.ok, 0x447A0000#32⟩]) ∧
  observation (execAll [.procs 1000#16, .rdpout] State.reset) =
    some (0x3F7DD483#32, 0x447A0000#32, 0x4477E188#32, [⟨.ok, 0x000003DF#32⟩, ⟨.ok, 0x4477E188#32⟩]) ∧
  observation (execAll [.procs 32767#16, .config 0x42700000#32 0x7F800000#32, .procs 0x8000#16, .rdpout] State.reset) =
    some (0x3F800000#32, 0xC7000000#32, 0xC70115BC#32,
      [⟨.ok, 0x00007EE9#32⟩, ⟨.ok, 0x00000000#32⟩, ⟨.ok, 0xFFFF8000#32⟩, ⟨.ok, 0xC70115BC#32⟩])

/-- R104: CONFIG sets COEF to COEF_ROM of its operands and responds (OK, 0); PREV_IN, PREV_OUT and all else are unchanged;
every operand pattern is accepted; with the worked example. -/
def Obligations.ConfigCompletes : Prop :=
  (∀ a b : Word, decode ⟨0x00000001#32, a, b⟩ = .ok (.config a b)) ∧
  (∀ (s : State) (a b : Word), exec (.config a b) s =
    .next { s with coef := coefRom a b, responses := s.responses ++ [⟨.ok, 0x00000000#32⟩] }) ∧
  coefRom 0x42700000#32 0x472C4400#32 = 0x3F7DD483#32

/-- R126: RESET sets both history registers to +0.0 and responds (OK, 0); COEF and all else are unchanged; it is
idempotent on the registers; with the worked example. -/
def Obligations.ResetCommandCompletes : Prop :=
  (∀ a b : Word, decode ⟨0x00000002#32, a, b⟩ = .ok .reset) ∧
  (∀ s : State, exec .reset s = .next { s with
    prevIn := 0x00000000#32, prevOut := 0x00000000#32, responses := s.responses ++ [⟨.ok, 0x00000000#32⟩] }) ∧
  (∀ s : State, ∃ t u, execAll [.reset] s = .next t ∧ execAll [.reset, .reset] s = .next u ∧
    (t.coef, t.prevIn, t.prevOut) = (u.coef, u.prevIn, u.prevOut)) ∧
  ∀ s : State, s.prevIn = 0x447A0000#32 → s.prevOut = 0x4477E188#32 → ∃ t, exec .reset s = .next t ∧
    t.prevIn = 0x00000000#32 ∧ t.prevOut = 0x00000000#32 ∧ t.coef = s.coef

/-- R121, R124: PROCF computes t1 = PREV_OUT + x, t2 = t1 - PREV_IN, y = COEF × t2, each rounded to binary32, from the
registers at entry; sets PREV_IN to x and PREV_OUT to y; responds (OK, y) unquantized; COEF and all else are unchanged; with
the worked example. -/
def Obligations.ProcfCompletes : Prop :=
  (∀ a b : Word, decode ⟨0x00000003#32, a, b⟩ = .ok (.procf a)) ∧
  (∀ (s : State) (x t1 t2 y : Word), t1 = add32 s.prevOut x → t2 = sub32 t1 s.prevIn → y = mul32 s.coef t2 →
    exec (.procf x) s =
      .next { s with prevIn := x, prevOut := y, responses := s.responses ++ [⟨.ok, y⟩] }) ∧
  observation (exec (.procf 0x447A0000#32) State.reset) =
    some (0x3F7DD483#32, 0x447A0000#32, 0x4477E188#32, [⟨.ok, 0x4477E188#32⟩])

/-- R145: PROCS converts its sample, runs the recurrence, quantizes, and responds with the sign-extended sample; PREV_OUT
keeps the unquantized y; a NaN y takes the next nanSample draw and no other y takes one; a NaN COEF or history makes y a
NaN; A[31:16] has no effect; with the corner cases and the worked example. -/
def Obligations.ProcsCompletes : Prop :=
  (∀ a b : Word, decode ⟨0x00000004#32, a, b⟩ = .ok (.procs (a.extractLsb' 0 16))) ∧
  (∀ (s : State) (x : Sample) (y : Word), y = mul32 s.coef (sub32 (add32 s.prevOut (i16ToF32 x)) s.prevIn) →
    exec (.procs x) s = .next { s with
      prevIn := i16ToF32 x
      prevOut := y
      draws := if isNaN y then s.draws + 1 else s.draws
      responses := s.responses ++
        [⟨.ok, (if isNaN y then Config.nanSample s.draws else quantizeNumber y).signExtend 32⟩] }) ∧
  (∀ (s : State) (x : Sample), isNaN s.coef = true ∨ isNaN s.prevIn = true ∨ isNaN s.prevOut = true →
    isNaN (mul32 s.coef (sub32 (add32 s.prevOut (i16ToF32 x)) s.prevIn)) = true) ∧
  i16ToF32 0x8000#16 = 0xC7000000#32 ∧ i16ToF32 0x7FFF#16 = 0x46FFFE00#32 ∧
  (∀ b : Word, decode ⟨0x00000004#32, 0x00008000#32, b⟩ = .ok (.procs 0x8000#16) ∧
    decode ⟨0x00000004#32, 0xFFFF8000#32, b⟩ = .ok (.procs 0x8000#16)) ∧
  observation (execAll [.procs 0x7FFF#16, .config 0x42700000#32 0x7F800000#32, .procs 0x8000#16] State.reset) =
    some (0x3F800000#32, 0xC7000000#32, 0xC70115BC#32,
      [⟨.ok, 0x00007EE9#32⟩, ⟨.ok, 0x00000000#32⟩, ⟨.ok, 0xFFFF8000#32⟩]) ∧
  observation (exec (.procs 1000#16) State.reset) =
    some (0x3F7DD483#32, 0x447A0000#32, 0x4477E188#32, [⟨.ok, 0x000003DF#32⟩])

/-- R146: QUANT quantizes its operand and responds with the sign-extended sample; for a NaN that is a fresh nanSample draw;
no register and nothing else is read or written; with the rows of R144 and the worked examples. -/
def Obligations.QuantCompletes : Prop :=
  (∀ a b : Word, decode ⟨0x00000005#32, a, b⟩ = .ok (.quant a)) ∧
  (∀ (s : State) (y : Word), isNaN y = false → exec (.quant y) s =
    .next { s with responses := s.responses ++ [⟨.ok, (quantizeNumber y).signExtend 32⟩] }) ∧
  (∀ (s : State) (y : Word), isNaN y = true → exec (.quant y) s = .next { s with
    draws := s.draws + 1
    responses := s.responses ++ [⟨.ok, (Config.nanSample s.draws).signExtend 32⟩] }) ∧
  (∀ row ∈ ([(0x00000000#32, 0), (0x80000000#32, 0), (0x00000001#32, 0), (0x3F7FFFFF#32, 0), (0xBF7FFFFF#32, 0),
      (0x3F800000#32, 1), (0x3FC00000#32, 1), (0xBFC00000#32, -1), (0x4477E188#32, 991), (0x46FFFE00#32, 32767),
      (0x46FFFF00#32, 32767), (0x47000000#32, 32767), (0x4E6E6B28#32, 32767), (0x7F800000#32, 32767),
      (0xC7000000#32, -32768), (0xC7000080#32, -32768), (0xCE6E6B28#32, -32768), (0xFF800000#32, -32768)] :
      List (Word × Int)), isNaN row.1 = false ∧ (quantizeNumber row.1).toInt = row.2) ∧
  isNaN 0x7FC00000#32 = true ∧
  (quantizeNumber 0x47000000#32).signExtend 32 = 0x00007FFF#32 ∧
  (quantizeNumber 0xCE6E6B28#32).signExtend 32 = 0xFFFF8000#32

/-- R161: with no input block PROCB responds (OK, NO_INPUT) after the one event Acquire(none), and does nothing else. -/
def Obligations.ProcbSkipsWithoutInput : Prop :=
  (∀ a b : Word, decode ⟨0x00000006#32, a, b⟩ = .ok .procb) ∧
  ∀ s : State, s.answers.acquire = none → exec .procb s = .next { s with
    trace := s.trace ++ [.acquire none], responses := s.responses ++ [⟨.ok, 0x00000001#32⟩] }

/-- R162: with an input block and no output block PROCB releases the input and responds (OK, NO_OUTPUT); the events are
Acquire, Allocate(none), Release, no sample is read, and nothing else changes. -/
def Obligations.ProcbSkipsWithoutOutput : Prop :=
  ∀ (s : State) (blk : InBlock), s.answers.acquire = some blk → blk.samples.length = Config.blockLen →
    s.answers.allocate = none → exec .procb s = .next { s with
      trace := s.trace ++ [.acquire (some blk), .allocate none, .release blk]
      responses := s.responses ++ [⟨.ok, 0x00000002#32⟩] }

/-- R168, with the DONE path of R163 and the event order of R50 (c): with both blocks PROCB completes with DONE; its effect on the registers and its
output samples are those of one PROCS per sample in index order; each index is read once and written once, in order,
between the allocation and the release of the very block that was acquired; the whole output is delivered last; COEF and all
else are unchanged. That PROCB also runs with a handle of more than BLOCK_LEN slots is the model's choice (log entry 7). -/
def Obligations.ProcbIsOneProcsPerSample : Prop :=
  ∀ (s : State) (blk : InBlock) (h : OutHandle), s.answers.acquire = some blk → s.answers.allocate = some h →
    blk.samples.length = Config.blockLen → Config.blockLen ≤ h.slots →
    ∃ (t u : State) (out : List Sample),
      exec .procb s = .next t ∧ execAll (blk.samples.map .procs) s = .next u ∧
      t.coef = s.coef ∧ t.prevIn = u.prevIn ∧ t.prevOut = u.prevOut ∧ t.draws = u.draws ∧
      out.length = Config.blockLen ∧
      u.responses = s.responses ++ out.map (fun q => ⟨.ok, q.signExtend 32⟩) ∧
      t.responses = s.responses ++ [⟨.ok, 0x00000000#32⟩] ∧
      t.trace = s.trace ++ ([.acquire (some blk), .allocate (some h)] ++ sampleEvents blk h 0 blk.samples out ++
        [.release blk, .deliver h out]) ∧
      u.trace = s.trace ∧ t.inputs = s.inputs ∧ t.answers = s.answers

/-- 20_memory.md §2, 43_block_processor.md §2: the event history that one PROCB adds: Acquire alone, or Acquire, Allocate
and Release, or Acquire, Allocate, Release and Deliver; so at most one release and one delivery, a release exactly when a
block was acquired and a delivery exactly when the outcome is DONE. -/
def Obligations.ProcbHistoryIsOneOfThree : Prop :=
  ∀ s t : State, DutiesMet s → exec .procb s = .next t →
    (s.answers.acquire = none ∧ t.history = s.history ++ [.acquire none] ∧
      t.responses = s.responses ++ [⟨.ok, 0x00000001#32⟩]) ∨
    (∃ blk, s.answers.acquire = some blk ∧ s.answers.allocate = none ∧
      t.history = s.history ++ [.acquire (some blk), .allocate none, .release blk] ∧
      t.responses = s.responses ++ [⟨.ok, 0x00000002#32⟩]) ∨
    (∃ blk h out, s.answers.acquire = some blk ∧ s.answers.allocate = some h ∧
      t.history = s.history ++ [.acquire (some blk), .allocate (some h), .release blk, .deliver h out] ∧
      t.responses = s.responses ++ [⟨.ok, 0x00000000#32⟩])

/-! ### Frames -/

/-- 10_state.md §4, the w columns: COEF is written by CONFIG only; PREV_IN and PREV_OUT only by RESET, PROCF, PROCS and a
PROCB that has both blocks; no command but PROCB calls a primitive; no command takes a draw but PROCS, QUANT and PROCB;
responses are only added to; nothing takes from the host's list or changes its answers. -/
def Obligations.CommandsWriteOnlyTheirColumns : Prop :=
  ∀ (i : Instr) (s t : State), exec i s = .next t →
    ((∀ a b, i ≠ .config a b) → t.coef = s.coef) ∧
    ((∀ x, i ≠ .procf x) → (∀ x, i ≠ .procs x) → i ≠ .reset →
      (i = .procb → s.answers.acquire = none ∨ s.answers.allocate = none) →
      t.prevIn = s.prevIn ∧ t.prevOut = s.prevOut) ∧
    (i ≠ .procb → t.trace = s.trace) ∧ s.trace <+: t.trace ∧
    ((∀ x, i ≠ .procs x) → (∀ y, i ≠ .quant y) → i ≠ .procb → t.draws = s.draws) ∧ s.draws ≤ t.draws ∧
    (∃ r, t.responses = s.responses ++ [⟨.ok, r⟩]) ∧
    t.inputs = s.inputs ∧ t.answers = s.answers

/-- 10_state.md §1 and §4: nothing but the three registers persists from one command to the next, so two states that agree on
them, on the host's answers and on the count of draws complete alike: same registers, same added events, same response,
whatever was recorded before and whatever the host issues next. -/
def Obligations.CommandsReadOnlyTheRegisters : Prop :=
  ∀ (i : Instr) (s s' t : State),
    s.coef = s'.coef → s.prevIn = s'.prevIn → s.prevOut = s'.prevOut → s.answers = s'.answers → s.draws = s'.draws →
    exec i s = .next t →
    ∃ (t' : State) (events : List Event) (r : Response), exec i s' = .next t' ∧
      t.coef = t'.coef ∧ t.prevIn = t'.prevIn ∧ t.prevOut = t'.prevOut ∧ t.draws = t'.draws ∧
      t.trace = s.trace ++ events ∧ t'.trace = s'.trace ++ events ∧
      t.responses = s.responses ++ [r] ∧ t'.responses = s'.responses ++ [r]

/-- 10_state.md §1 and §3: COEF changes only as a whole: after any step it is what it was, or the ROM value of the reset's
operands, or the ROM value of the one CONFIG the step ran. -/
def Obligations.CoefIsAlwaysWholeRomValue : Prop :=
  ∀ s t : State, step s = .next t →
    t.coef = s.coef ∨
    (∃ rest, s.inputs = .engineReset :: rest ∧ t.coef = coefRom 0x42700000#32 0x472C4400#32) ∨
    (∃ c ans rest fc fs, s.inputs = .command c ans :: rest ∧ decode c = .ok (.config fc fs) ∧ t.coef = coefRom fc fs)

/-! ### Binary32 arithmetic -/

/-- 00_scope.md §5: the sum of two finite values is the exact sum rounded to nearest, ties to even; from 2^128 - 2^103 on it is
infinity of the sum's sign; an exact zero sum is -0.0 when both operands are negative and +0.0 otherwise (IEEE 754's rule,
log entry 18). -/
def Obligations.SumIsRoundedOnce : Prop :=
  ∀ a b : Word, isFinite a = true → isFinite b = true →
    (|((real a + real b : ℚ) : ℝ)| < overflowBound → NearestEven (add32 a b) ((real a + real b : ℚ) : ℝ)) ∧
    (overflowBound ≤ ((real a + real b : ℚ) : ℝ) → add32 a b = 0x7F800000#32) ∧
    (((real a + real b : ℚ) : ℝ) ≤ -overflowBound → add32 a b = 0xFF800000#32) ∧
    (real a + real b = 0 → add32 a b = if signBit a && signBit b then 0x80000000#32 else 0x00000000#32)

/-- 00_scope.md §5: the difference of two finite values likewise; an exact zero difference is -0.0 only for -0.0 - +0.0
(IEEE 754's rule, log entry 18). -/
def Obligations.DifferenceIsRoundedOnce : Prop :=
  ∀ a b : Word, isFinite a = true → isFinite b = true →
    (|((real a - real b : ℚ) : ℝ)| < overflowBound → NearestEven (sub32 a b) ((real a - real b : ℚ) : ℝ)) ∧
    (overflowBound ≤ ((real a - real b : ℚ) : ℝ) → sub32 a b = 0x7F800000#32) ∧
    (((real a - real b : ℚ) : ℝ) ≤ -overflowBound → sub32 a b = 0xFF800000#32) ∧
    (real a - real b = 0 → sub32 a b = if signBit a && !signBit b then 0x80000000#32 else 0x00000000#32)

/-- 00_scope.md §5: the product of two finite values is the exact product rounded to nearest, ties to even, with gradual
underflow; from 2^128 - 2^103 on it is infinity; its sign is the exclusive or of the signs, for a zero too
(IEEE 754's rule, log entry 18). -/
def Obligations.ProductIsRoundedOnce : Prop :=
  ∀ a b : Word, isFinite a = true → isFinite b = true →
    (|((real a * real b : ℚ) : ℝ)| < overflowBound → NearestEven (mul32 a b) ((real a * real b : ℚ) : ℝ)) ∧
    (overflowBound ≤ |((real a * real b : ℚ) : ℝ)| → isInf (mul32 a b) = true) ∧
    signBit (mul32 a b) = (signBit a != signBit b)

/-- 00_scope.md §5: the arithmetic on NaN and infinity: a NaN operand, infinity minus infinity and zero times infinity give
0x7FC00000; otherwise an infinite operand gives an infinity (IEEE 754's rules, log entry 18). -/
def Obligations.NonFiniteArithmetic : Prop :=
  ∀ a b : Word,
    (isNaN a = true ∨ isNaN b = true →
      add32 a b = 0x7FC00000#32 ∧ sub32 a b = 0x7FC00000#32 ∧ mul32 a b = 0x7FC00000#32) ∧
    (isInf a = true → isFinite b = true → add32 a b = a ∧ sub32 a b = a) ∧
    (isFinite a = true → isInf b = true → add32 a b = b ∧ sub32 a b = b ^^^ 0x80000000#32) ∧
    (isInf a = true → isInf b = true →
      add32 a b = (if signBit a = signBit b then a else 0x7FC00000#32) ∧
      sub32 a b = (if signBit a = signBit b then 0x7FC00000#32 else a)) ∧
    (isInf a = true → isFinite b = true → real b = 0 →
      mul32 a b = 0x7FC00000#32 ∧ mul32 b a = 0x7FC00000#32) ∧
    (isInf a = true → isNaN b = false → ¬(isFinite b = true ∧ real b = 0) →
      mul32 a b = (if signBit a = signBit b then 0x7F800000#32 else 0xFF800000#32) ∧ mul32 b a = mul32 a b)

/-- 00_scope.md §5: lt32 is the order of the values, with infinities beyond every finite value and false for a NaN. -/
def Obligations.LessThanIsTheOrderOfValues : Prop :=
  ∀ a b : Word,
    (isNaN a = true ∨ isNaN b = true → lt32 a b = false) ∧
    (isFinite a = true → isFinite b = true → (lt32 a b = true ↔ real a < real b)) ∧
    (isNaN b = false → (lt32 0xFF800000#32 b = true ↔ b ≠ 0xFF800000#32)) ∧
    (isNaN a = false → (lt32 a 0x7F800000#32 = true ↔ a ≠ 0x7F800000#32)) ∧
    lt32 a 0xFF800000#32 = false ∧ lt32 0x7F800000#32 b = false

/-- R140: every int16 is kept exactly and unscaled as a binary32 integer in [-32768, 32767], and never becomes -0.0. -/
def Obligations.SampleConversionIsExact : Prop :=
  ∀ x : Sample, isFinite (i16ToF32 x) = true ∧ real (i16ToF32 x) = (x.toInt : ℚ) ∧
    -32768 ≤ real (i16ToF32 x) ∧ real (i16ToF32 x) ≤ 32767 ∧ i16ToF32 x ≠ 0x80000000#32

/-- R141, R142: the quantizer clamps to [-32768, 32767] and truncates toward zero, infinities included, and truncating first and
clamping second gives the same; a NaN gives the next nanSample draw. -/
def Obligations.QuantizerClampsThenTruncates : Prop :=
  ∀ (y : Word) (s : State),
    (isNaN y = true → quantized y s = Config.nanSample s.draws) ∧
    (isNaN y = false → quantized y s = quantizeNumber y) ∧
    (y = 0x7F800000#32 → (quantizeNumber y).toInt = 32767) ∧
    (y = 0xFF800000#32 → (quantizeNumber y).toInt = -32768) ∧
    (isFinite y = true →
      (32767 ≤ real y → (quantizeNumber y).toInt = 32767) ∧
      (real y ≤ -32768 → (quantizeNumber y).toInt = -32768) ∧
      (-32768 < real y → real y < 32767 → (quantizeNumber y).toInt = truncRat (real y)) ∧
      (quantizeNumber y).toInt = max (-32768) (min 32767 (truncRat (real y))))

/-! ### The coefficient ROM -/

/-- R100, R101: a cutoff below 1.0 becomes 1.0 and a rate below 1000.0 becomes 44100.0, -infinity among them; every other
value, +infinity and a NaN among them, is kept; the ROM is a function of the two; its value at the clamp. -/
def Obligations.RomClampsItsOperands : Prop :=
  (∀ w : Word,
    (isFinite w = true → clampCutoff w = (if real w < 1 then 0x3F800000#32 else w) ∧
      clampRate w = (if real w < 1000 then 0x472C4400#32 else w)) ∧
    (isNaN w = true ∨ w = 0x7F800000#32 → clampCutoff w = w ∧ clampRate w = w)) ∧
  clampCutoff 0xFF800000#32 = 0x3F800000#32 ∧ clampRate 0xFF800000#32 = 0x472C4400#32 ∧
  (∀ fc fs : Word, coefRom fc fs = coefRom (clampCutoff fc) (clampRate fs)) ∧
  coefRom 0x3F800000#32 0x472C4400#32 = 0x3F7FF6AA#32

/-- 40_configure.md §3 (a) and (b): a cutoff at or below 1.0 acts as 1.0, and a rate below 1000.0 as 44100.0. -/
def Obligations.RomIgnoresImplausibleOperands : Prop :=
  ∀ fc fs : Word,
    (lt32 fc 0x3F800000#32 = true ∨ fc = 0x3F800000#32 → coefRom fc fs = coefRom 0x3F800000#32 fs) ∧
    (lt32 fs 0x447A0000#32 = true → coefRom fc fs = coefRom fc 0x472C4400#32)

/-- R103: the clamped operands are at least 1.0 and 1000.0 or are not finite, and the five rows of the table. -/
def Obligations.RomNonFiniteOperands : Prop :=
  (∀ fc : Word, isNaN (clampCutoff fc) = true ∨ clampCutoff fc = 0x7F800000#32 ∨
    (isFinite (clampCutoff fc) = true ∧ 1 ≤ real (clampCutoff fc))) ∧
  (∀ fs : Word, isNaN (clampRate fs) = true ∨ clampRate fs = 0x7F800000#32 ∨
    (isFinite (clampRate fs) = true ∧ 1000 ≤ real (clampRate fs))) ∧
  ∀ fc fs : Word,
    (isNaN (clampCutoff fc) = true → coefRom fc fs = 0x7FC00000#32) ∧
    (isNaN (clampRate fs) = true → coefRom fc fs = 0x7FC00000#32) ∧
    (clampCutoff fc = 0x7F800000#32 → isFinite (clampRate fs) = true → coefRom fc fs = 0x00000000#32) ∧
    (isFinite (clampCutoff fc) = true → clampRate fs = 0x7F800000#32 → coefRom fc fs = 0x3F800000#32) ∧
    (clampCutoff fc = 0x7F800000#32 → clampRate fs = 0x7F800000#32 → coefRom fc fs = 0x7FC00000#32)

/-- R102: for finite clamped operands the ROM value is fs' / (fs' + 2 π fc') with the real number π, rounded once to
binary32, to nearest with ties to even; fc' is at least 1.0 and fs' at least 1000.0; that real number lies in (0, 1) and is
RC / (RC + dt); and its rounding lies in (0, 1] and can be 1.0. -/
def Obligations.RomValueIsCorrectlyRounded : Prop :=
  ∀ (fc fs : Word) (f r : ℝ), isFinite (clampCutoff fc) = true → isFinite (clampRate fs) = true →
    f = ((real (clampCutoff fc) : ℚ) : ℝ) → r = ((real (clampRate fs) : ℚ) : ℝ) →
    NearestEven (coefRom fc fs) (r / (r + 2 * Real.pi * f)) ∧ signBit (coefRom fc fs) = false ∧
    0 < real (coefRom fc fs) ∧ real (coefRom fc fs) ≤ 1 ∧ coefRom 0x3F800000#32 0x7F7FFFFF#32 = 0x3F800000#32 ∧
    1 ≤ f ∧ 1000 ≤ r ∧
    0 < r / (r + 2 * Real.pi * f) ∧ r / (r + 2 * Real.pi * f) < 1 ∧
    r / (r + 2 * Real.pi * f) = (1 / (2 * Real.pi * f)) / (1 / (2 * Real.pi * f) + 1 / r)

/-- 40_configure.md §3 (c): for every finite operand pair the ROM value is in (0, 1], and the least is
COEF_ROM(FLT_MAX, 1000.0) = 0x031F27AB, a normal number. -/
def Obligations.RomRange : Prop :=
  (∀ fc fs : Word, isFinite fc = true → isFinite fs = true →
    isFinite (coefRom fc fs) = true ∧ real 0x031F27AB#32 ≤ real (coefRom fc fs) ∧ 0 < real (coefRom fc fs) ∧
    real (coefRom fc fs) ≤ 1) ∧
  coefRom 0x7F7FFFFF#32 0x447A0000#32 = 0x031F27AB#32

/-- 40_configure.md §3 (d): for finite clamped operands the ROM value is 1.0 exactly when the real value of R102 is at least
1 - 2^-25. -/
def Obligations.RomIsOneAboveTheLastMidpoint : Prop :=
  ∀ (fc fs : Word) (f r : ℝ), isFinite (clampCutoff fc) = true → isFinite (clampRate fs) = true →
    f = ((real (clampCutoff fc) : ℚ) : ℝ) → r = ((real (clampRate fs) : ℚ) : ℝ) →
    (coefRom fc fs = 0x3F800000#32 ↔ 1 - 1 / 2 ^ 25 ≤ r / (r + 2 * Real.pi * f))

/-- 40_configure.md §3 (e): for finite clamped operands the ROM value does not increase as fc' grows and does not decrease
as fs' grows. -/
def Obligations.RomIsMonotone : Prop :=
  ∀ fc fc' fs fs' : Word,
    isFinite (clampCutoff fc) = true → isFinite (clampCutoff fc') = true →
    isFinite (clampRate fs) = true → isFinite (clampRate fs') = true →
    (real (clampCutoff fc) ≤ real (clampCutoff fc') → real (coefRom fc' fs) ≤ real (coefRom fc fs)) ∧
    (real (clampRate fs) ≤ real (clampRate fs') → real (coefRom fc fs) ≤ real (coefRom fc fs'))

/-- 40_configure.md §3 (f): for finite clamped operands the real value of R102 is irrational, so no value is exactly
representable and none is a rounding midpoint: the nearest binary32 is strictly nearest. -/
def Obligations.RomHasNoTies : Prop :=
  ∀ (fc fs : Word) (f r : ℝ), isFinite (clampCutoff fc) = true → isFinite (clampRate fs) = true →
    f = ((real (clampCutoff fc) : ℚ) : ℝ) → r = ((real (clampRate fs) : ℚ) : ℝ) →
    Irrational (r / (r + 2 * Real.pi * f)) ∧
    ∀ v : Word, isFinite v = true → real v ≠ real (coefRom fc fs) →
      |((real (coefRom fc fs) : ℚ) : ℝ) - r / (r + 2 * Real.pi * f)| <
        |((real v : ℚ) : ℝ) - r / (r + 2 * Real.pi * f)|

/-! ### The recurrence -/

/-- 41_filter_core.md §1 (a) and (b): a NaN in COEF, PREV_IN, PREV_OUT or x makes y the NaN 0x7FC00000, and once PREV_OUT is
a NaN every command but RESET leaves it one. -/
def Obligations.NaNPropagatesAndSticks : Prop :=
  (∀ (s : State) (x : Word),
    isNaN s.coef = true ∨ isNaN s.prevIn = true ∨ isNaN s.prevOut = true ∨ isNaN x = true →
    recurrence x s = 0x7FC00000#32) ∧
  ∀ (i : Instr) (s t : State), isNaN s.prevOut = true → i ≠ .reset → exec i s = .next t → isNaN t.prevOut = true

/-- 41_filter_core.md §1 (c): x = +infinity with a finite history gives +infinity for COEF above zero and a NaN for a zero
COEF, and the same infinity in both history registers gives a NaN for every x. -/
def Obligations.InfinityInTheRecurrence : Prop :=
  ∀ (s : State) (x : Word),
    (isFinite s.prevIn = true → isFinite s.prevOut = true → isFinite s.coef = true →
      (0 < real s.coef → recurrence 0x7F800000#32 s = 0x7F800000#32) ∧
      (real s.coef = 0 → recurrence 0x7F800000#32 s = 0x7FC00000#32)) ∧
    (isInf s.prevIn = true → s.prevOut = s.prevIn → recurrence x s = 0x7FC00000#32)

/-- 41_filter_core.md §2 (a): from a cleared history the first output is COEF × x for every x but -0.0, and for -0.0 it is
+0.0 for every finite COEF that is not negative. -/
def Obligations.FirstSampleIsCoefTimesInput : Prop :=
  ∀ s : State, s.prevIn = 0x00000000#32 → s.prevOut = 0x00000000#32 →
    (∀ x : Word, x ≠ 0x80000000#32 → recurrence x s = mul32 s.coef x) ∧
    (isFinite s.coef = true → signBit s.coef = false → recurrence 0x80000000#32 s = 0x00000000#32)

/-- 41_filter_core.md §2 (b): from a cleared history with a finite COEF that is not negative, any number of zero samples gives
zero samples and leaves the registers as they are. -/
def Obligations.SilenceStaysSilent : Prop :=
  ∀ (n : Nat) (s : State), isFinite s.coef = true → signBit s.coef = false →
    s.prevIn = 0x00000000#32 → s.prevOut = 0x00000000#32 →
    execAll (List.replicate n (.procs 0#16)) s =
      .next { s with responses := s.responses ++ List.replicate n ⟨.ok, 0x00000000#32⟩ }

/-- 41_filter_core.md §2 (c): with COEF = 1.0 and a history of one integer below 2^23 in magnitude in both registers (the
cleared history first), an integer input below 2^23 in magnitude comes out unchanged, and the history is again one integer
in both registers. -/
def Obligations.PassThroughAtUnitCoefficient : Prop :=
  ∀ (s : State) (x : Word) (m n : Int),
    s.coef = 0x3F800000#32 → s.prevIn = s.prevOut → isFinite s.prevIn = true → isFinite x = true →
    real s.prevIn = m → |m| < 2 ^ 23 → real x = n → |n| < 2 ^ 23 → x ≠ 0x80000000#32 →
    exec (.procf x) s =
      .next { s with prevIn := x, prevOut := x, responses := s.responses ++ [⟨.ok, x⟩] }

/-- 41_filter_core.md §2 (d) and §1 (d): with COEF = +0.0 and a finite t2 the output is a zero, negative exactly when t2 is
negative. -/
def Obligations.ZeroCoefficientGivesZero : Prop :=
  ∀ (s : State) (x : Word), s.coef = 0x00000000#32 →
    isFinite (sub32 (add32 s.prevOut x) s.prevIn) = true →
    recurrence x s =
      if signBit (sub32 (add32 s.prevOut x) s.prevIn) then 0x80000000#32 else 0x00000000#32

/-! ### Invariants -/

/-- 42_sample_path.md §4: INV holds after the engine reset. -/
def Obligations.InvHoldsAtReset : Prop := Inv State.reset

/-- 42_sample_path.md §4: every command of the integer path keeps INV, from every state that meets it, and RESET establishes
it whenever its first clause holds. -/
def Obligations.IntegerPathKeepsInv : Prop :=
  (∀ (i : Instr) (s t : State), Inv s → integerPath i → exec i s = .next t → Inv t) ∧
  ∀ s t : State, InvCoef s.coef → exec .reset s = .next t → Inv t

/-- 42_sample_path.md §4: under INV the output for every sample is finite and at most 2^42 in magnitude, and its quantization
takes no nanSample draw. -/
def Obligations.OutputsAreBoundedUnderInv : Prop :=
  ∀ (s : State) (x : Sample), Inv s →
    isFinite (recurrence (i16ToF32 x) s) = true ∧ |real (recurrence (i16ToF32 x) s)| ≤ 2 ^ 42 ∧
    pathSample x s = quantizeNumber (recurrence (i16ToF32 x) s) ∧ (pathState x s).draws = s.draws

/-- 42_sample_path.md §4, over the whole machine: from every state that meets INV and whose host issues integer-path commands
only, every step leads to such a state. -/
def Obligations.IntegerRunKeptByStep : Prop :=
  ∀ s t : State, IntegerRun s → step s = .next t → IntegerRun t

/-- 10_state.md §1, 20_memory.md §2: the legal values hold at reset. -/
def Obligations.LegalAtReset : Prop := Legal State.reset

/-- 10_state.md §1, 20_memory.md §2 and §3: whatever the host issues, every step keeps COEF a pattern from +0.0 to 1.0 or the
NaN 0x7FC00000, a NaN in PREV_OUT the NaN 0x7FC00000, every sample index below BLOCK_LEN and every delivered block complete. -/
def Obligations.LegalKeptByStep : Prop :=
  ∀ s t : State, Legal s → step s = .next t → Legal t
end

