-- ==== Sys2Proof/Laws/Rounding.lean ====
section
/-! SUPPORT. What the rounding operation does, said once: `roundMag n d` is the binary32 magnitude nearest to n / d units of
2^-149, ties to even (R11). -/

namespace Sys2Proof.Machine

/-- The value, in units of 2^-149, of a magnitude pattern (the low 31 bits of a word), as if there were no end to the
exponents. -/
def magValue (p : Nat) : Nat := if p / 2 ^ 23 = 0 then p % 2 ^ 23 else 2 ^ (p / 2 ^ 23 - 1) * (2 ^ 23 + p % 2 ^ 23)

theorem magValue_eq (p : Nat) :
    magValue p = if p / 2 ^ 23 = 0 then p % 2 ^ 23 else (p % 2 ^ 23 + 2 ^ 23) * 2 ^ (p / 2 ^ 23 - 1) := by
  rw [magValue, Nat.add_comm (2 ^ 23), Nat.mul_comm (2 ^ (p / 2 ^ 23 - 1))]

theorem magValue_shift (k m : Nat) (hm : m ≤ 2 ^ 24) (hk : k = 0 ∨ 2 ^ 23 ≤ m) :
    magValue (k * 2 ^ 23 + m) = m * 2 ^ k := by
  rcases Nat.lt_or_ge m (2 ^ 23) with h | h
  · have hk0 : k = 0 := by omega
    subst hk0
    have h1 : (0 * 2 ^ 23 + m) / 2 ^ 23 = 0 := by omega
    have h2 : (0 * 2 ^ 23 + m) % 2 ^ 23 = m := by omega
    rw [magValue_eq, h1, h2]; simp
  rcases Nat.lt_or_ge m (2 ^ 24) with h' | h'
  · have h1 : (k * 2 ^ 23 + m) / 2 ^ 23 = k + 1 := by omega
    have h2 : (k * 2 ^ 23 + m) % 2 ^ 23 = m - 2 ^ 23 := by omega
    rw [magValue_eq, h1, h2, if_neg (by omega), Nat.sub_add_cancel h, Nat.add_sub_cancel]
  · have hm' : m = 2 ^ 24 := by omega
    have h1 : (k * 2 ^ 23 + m) / 2 ^ 23 = k + 2 := by omega
    have h2 : (k * 2 ^ 23 + m) % 2 ^ 23 = 0 := by omega
    rw [magValue_eq, h1, h2, if_neg (by omega), hm', show k + 2 - 1 = k + 1 by omega, Nat.pow_succ 2 k]
    ring

theorem magValue_small (p : Nat) (h : p < 2 ^ 24) : magValue p = p := by
  have := magValue_shift 0 p (by omega) (.inl rfl)
  simpa using this

/-- Below the binade of 2^(23+k) units a magnitude is less than 2^(23+k); from it on, a multiple of 2^k. -/
theorem magValue_cases (k p : Nat) : magValue p < 2 ^ (23 + k) ∨ ∃ j, magValue p = j * 2 ^ k ∧ 2 ^ 23 ≤ j := by
  rw [magValue_eq]
  split
  · left
    calc p % 2 ^ 23 < 2 ^ 23 := Nat.mod_lt _ (by decide)
      _ ≤ 2 ^ (23 + k) := Nat.pow_le_pow_right (by decide) (by omega)
  · rcases Nat.lt_or_ge (p / 2 ^ 23 - 1) k with h | h
    · left
      calc (p % 2 ^ 23 + 2 ^ 23) * 2 ^ (p / 2 ^ 23 - 1)
          < 2 ^ 24 * 2 ^ (p / 2 ^ 23 - 1) := Nat.mul_lt_mul_of_pos_right (by omega) (by positivity)
        _ = 2 ^ (24 + (p / 2 ^ 23 - 1)) := (Nat.pow_add 2 24 _).symm
        _ ≤ 2 ^ (23 + k) := Nat.pow_le_pow_right (by decide) (by omega)
    · right
      refine ⟨(p % 2 ^ 23 + 2 ^ 23) * 2 ^ (p / 2 ^ 23 - 1 - k), ?_, ?_⟩
      · rw [Nat.mul_assoc, ← Nat.pow_add, Nat.sub_add_cancel h]
      · exact Nat.le_trans (by omega : 2 ^ 23 ≤ p % 2 ^ 23 + 2 ^ 23) (Nat.le_mul_of_pos_right _ (by positivity))

/-- Magnitude patterns are in the order of their values. -/
theorem magValue_strictMono : StrictMono magValue := by
  refine strictMono_nat_of_lt_succ fun p => ?_
  rcases Nat.lt_or_ge (p % 2 ^ 23 + 1) (2 ^ 23) with h | h
  · have h1 : (p + 1) / 2 ^ 23 = p / 2 ^ 23 := by omega
    have h2 : (p + 1) % 2 ^ 23 = p % 2 ^ 23 + 1 := by omega
    rw [magValue_eq, magValue_eq]
    rw [h1, h2]
    split
    · omega
    · exact Nat.mul_lt_mul_of_pos_right (by omega) (by positivity)
  · have h1 : (p + 1) / 2 ^ 23 = p / 2 ^ 23 + 1 := by omega
    have h2 : (p + 1) % 2 ^ 23 = 0 := by omega
    have h3 : p % 2 ^ 23 = 2 ^ 23 - 1 := by omega
    rw [magValue_eq, magValue_eq]
    rw [h1, h2, h3, if_neg (by omega : ¬ p / 2 ^ 23 + 1 = 0), Nat.add_sub_cancel]
    split
    · rename_i h0; rw [h0]; decide
    · rename_i h0
      obtain ⟨e, he⟩ := Nat.exists_eq_succ_of_ne_zero h0
      rw [he, Nat.succ_sub_one, Nat.pow_succ]
      have : 0 < 2 ^ e := by positivity
      omega

/-- The rounded quotient is within half a divisor, and even when it is exactly half a divisor away. -/
theorem divNearestEven_spec (n d : Nat) (hd : 0 < d) :
    2 * |((divNearestEven n d * d : Nat) : Int) - n| ≤ d ∧
    (2 * |((divNearestEven n d * d : Nat) : Int) - n| = d → divNearestEven n d % 2 = 0) := by
  have hdiv := Nat.div_add_mod n d
  have hmod := Nat.mod_lt n hd
  have hq : (n / d + 1) * d = d * (n / d) + d := by ring
  unfold divNearestEven
  simp only
  split
  · rw [abs_of_nonpos (by rw [Nat.mul_comm]; omega), Nat.mul_comm (n / d) d]
    omega
  split
  · rw [hq, abs_of_nonneg (by omega)]
    omega
  · rcases Nat.mod_two_eq_zero_or_one (n / d) with h | h
    · rw [h, Nat.add_zero, Nat.mul_comm (n / d) d, abs_of_nonpos (by omega)]
      omega
    · rw [h, hq, abs_of_nonneg (by omega)]
      omega

theorem divNearestEven_le (n d b : Nat) (hd : 0 < d) (h : n ≤ b * d) : divNearestEven n d ≤ b := by
  by_contra hc
  have h1 : (b + 1) * d ≤ divNearestEven n d * d := Nat.mul_le_mul_right d (by omega)
  have h2 := (divNearestEven_spec n d hd).1
  have h3 : (b + 1) * d = b * d + d := by ring
  rw [abs_of_nonneg (by omega)] at h2
  omega

theorem le_divNearestEven (n d b : Nat) (hd : 0 < d) (h : b * d ≤ n) : b ≤ divNearestEven n d := by
  by_contra hc
  have h1 : (divNearestEven n d + 1) * d ≤ b * d := Nat.mul_le_mul_right d (by omega)
  have h2 := (divNearestEven_spec n d hd).1
  have h3 : (divNearestEven n d + 1) * d = divNearestEven n d * d + d := by ring
  rw [abs_of_nonpos (by omega)] at h2
  omega

theorem divNearestEven_mul (m d : Nat) (hd : 0 < d) : divNearestEven (m * d) d = m :=
  Nat.le_antisymm (divNearestEven_le _ _ _ hd le_rfl) (le_divNearestEven _ _ _ hd le_rfl)

/-- The shift that `roundMag` takes. -/
def roundShift (n d : Nat) : Nat := (n / d).log2 - 23

/-- The pattern of the rounded magnitude before the overflow to infinity. -/
def roundPattern (n d : Nat) : Nat := 2 ^ 23 * roundShift n d + divNearestEven n (d * 2 ^ roundShift n d)

theorem roundMag_eq (n d : Nat) : roundMag n d = min (roundPattern n d) 0x7F800000 := (rfl)

theorem roundShift_bounds (n d : Nat) (hd : 0 < d) :
    n ≤ 2 ^ 24 * (d * 2 ^ roundShift n d) ∧
    (roundShift n d = 0 ∨ 2 ^ 23 * (d * 2 ^ roundShift n d) ≤ n) := by
  unfold roundShift
  rcases Nat.eq_zero_or_pos (n / d) with h0 | hpos
  · have : n < d := (Nat.div_eq_zero_iff_lt hd).1 h0
    rw [h0]
    simp
    omega
  have hlo : 2 ^ (n / d).log2 ≤ n / d := Nat.log2_self_le (by omega)
  have hhi : n / d < 2 ^ ((n / d).log2 + 1) := Nat.lt_log2_self
  constructor
  · have h1 : n < d * 2 ^ ((n / d).log2 + 1) := (Nat.div_lt_iff_lt_mul hd).1 hhi |>.trans_eq (Nat.mul_comm _ _)
    have h2 : 2 ^ ((n / d).log2 + 1) ≤ 2 ^ (24 + ((n / d).log2 - 23)) := Nat.pow_le_pow_right (by decide) (by omega)
    have h3 := Nat.mul_le_mul_left d h2
    rw [Nat.pow_add 2 24] at h3
    linarith
  · rcases Nat.eq_zero_or_pos ((n / d).log2 - 23) with hk | hk
    · exact .inl hk
    · right
      have h1 : 2 ^ (n / d).log2 * d ≤ n := (Nat.le_div_iff_mul_le hd).1 hlo
      have h2 : 2 ^ (n / d).log2 = 2 ^ 23 * 2 ^ ((n / d).log2 - 23) := by
        rw [← Nat.pow_add]; congr 1; omega
      rw [h2] at h1
      linarith

/-- The value of the rounded pattern is a whole number of shifted units, within half of one of them. -/
theorem roundPattern_value (n d : Nat) (hd : 0 < d) :
    magValue (roundPattern n d) = divNearestEven n (d * 2 ^ roundShift n d) * 2 ^ roundShift n d := by
  have hb := roundShift_bounds n d hd
  have hD : 0 < d * 2 ^ roundShift n d := by positivity
  rw [roundPattern, Nat.mul_comm (2 ^ 23)]
  refine magValue_shift _ _ (divNearestEven_le _ _ _ hD hb.1) ?_
  exact hb.2.imp id fun h => le_divNearestEven _ _ _ hD h

/-- The rounded pattern is the nearest one to n / d units, and the even one of two that are as near (R11). -/
theorem roundPattern_nearest (n d p : Nat) (hd : 0 < d) :
    |((magValue (roundPattern n d) * d : Nat) : Int) - n| ≤ |((magValue p * d : Nat) : Int) - n| ∧
    (|((magValue (roundPattern n d) * d : Nat) : Int) - n| = |((magValue p * d : Nat) : Int) - n| →
      magValue p ≠ magValue (roundPattern n d) → roundPattern n d % 2 = 0) := by
  have hb := roundShift_bounds n d hd
  rw [roundPattern_value n d hd]
  unfold roundPattern
  generalize roundShift n d = k at *
  have hD : 0 < d * 2 ^ k := by positivity
  have hs := divNearestEven_spec n (d * 2 ^ k) hD
  have hle := divNearestEven_le n _ _ hD hb.1
  have hge := le_divNearestEven n (d * 2 ^ k)
  generalize divNearestEven n (d * 2 ^ k) = m at *
  have hmul : m * 2 ^ k * d = m * (d * 2 ^ k) := by ring
  rw [hmul]
  generalize hDD : d * 2 ^ k = D at *
  have key : ∀ j : Nat, |((m * D : Nat) : Int) - n| ≤ |((j * D : Nat) : Int) - n| ∧
      (|((m * D : Nat) : Int) - n| = |((j * D : Nat) : Int) - n| → j ≠ m → m % 2 = 0) := by
    intro j
    rcases Nat.lt_trichotomy j m with h | h | h
    · have h1 : (j + 1) * D ≤ m * D := Nat.mul_le_mul_right D h
      have h2 : (j + 1) * D = j * D + D := by ring
      rcases abs_cases (((m * D : Nat) : Int) - n) with ⟨e1, e2⟩ | ⟨e1, e2⟩ <;>
      rcases abs_cases (((j * D : Nat) : Int) - n) with ⟨e3, e4⟩ | ⟨e3, e4⟩ <;>
      rw [e1] at hs ⊢ <;> rw [e3] <;> refine ⟨by omega, fun he _ => hs.2 (by omega)⟩
    · subst h; exact ⟨le_rfl, fun _ h => absurd rfl h⟩
    · have h1 : (m + 1) * D ≤ j * D := Nat.mul_le_mul_right D h
      have h2 : (m + 1) * D = m * D + D := by ring
      rcases abs_cases (((m * D : Nat) : Int) - n) with ⟨e1, e2⟩ | ⟨e1, e2⟩ <;>
      rcases abs_cases (((j * D : Nat) : Int) - n) with ⟨e3, e4⟩ | ⟨e3, e4⟩ <;>
      rw [e1] at hs ⊢ <;> rw [e3] <;> refine ⟨by omega, fun he _ => hs.2 (by omega)⟩
  have far : k ≠ 0 → magValue p < 2 ^ (23 + k) →
      |((m * D : Nat) : Int) - n| < |((magValue p * d : Nat) : Int) - n| := by
    intro hk hlt
    have hn : 2 ^ 23 * D ≤ n := hb.2.resolve_left hk
    have h1 : magValue p * d < 2 ^ 23 * D := by
      rw [← hDD]
      calc magValue p * d < 2 ^ (23 + k) * d := Nat.mul_lt_mul_of_pos_right hlt hd
        _ = 2 ^ 23 * (d * 2 ^ k) := by rw [Nat.pow_add]; ring
    have h2 := (key (2 ^ 23)).1
    rw [abs_of_nonpos (by omega : ((2 ^ 23 * D : Nat) : Int) - n ≤ 0)] at h2
    rw [abs_of_nonpos (by omega : ((magValue p * d : Nat) : Int) - n ≤ 0)]
    omega
  have near : ∀ j, magValue p = j * 2 ^ k →
      |((m * D : Nat) : Int) - n| ≤ |((magValue p * d : Nat) : Int) - n| ∧
      (|((m * D : Nat) : Int) - n| = |((magValue p * d : Nat) : Int) - n| →
        magValue p ≠ m * 2 ^ k → (2 ^ 23 * k + m) % 2 = 0) := by
    intro j hj
    have hjd : magValue p * d = j * D := by rw [hj, ← hDD]; ring
    rw [hjd]
    refine ⟨(key j).1, fun he hne => ?_⟩
    have := (key j).2 he (fun h => hne (by rw [hj, h]))
    omega
  rcases magValue_cases k p with h | ⟨j, hj, -⟩
  · rcases Nat.eq_zero_or_pos k with hk | hk
    · subst hk; exact near (magValue p) (by simp)
    · have := far (by omega) h
      exact ⟨this.le, fun he => absurd he this.ne⟩
  · exact near j hj

/-- Rounding a value that has a pattern gives that pattern. -/
theorem roundPattern_exact (p d : Nat) (hd : 0 < d) : roundPattern (magValue p * d) d = p := by
  have h := (roundPattern_nearest (magValue p * d) d p hd).1
  rw [sub_self, abs_zero] at h
  have h0 := abs_eq_zero.1 (le_antisymm h (abs_nonneg _))
  have h1 : magValue (roundPattern (magValue p * d) d) * d = magValue p * d := by omega
  exact magValue_strictMono.injective (Nat.eq_of_mul_eq_mul_right hd h1)

end Sys2Proof.Machine
end

