-- ==== Sys2Proof/Laws/Binary32.lean ====
section
/-! SUPPORT. The fields of a binary32 word as arithmetic on its number (R24), and what packing a rounded magnitude gives
(R11). -/

namespace Sys2Proof.Machine

theorem expField_eq (w : Word) : expField w = w.toNat / 2 ^ 23 % 2 ^ 8 := by
  simp [expField, Nat.shiftRight_eq_div_pow]

theorem fracField_eq (w : Word) : fracField w = w.toNat % 2 ^ 23 := by
  simp [fracField]

theorem signBit_eq (w : Word) : signBit w = decide (2 ^ 31 ≤ w.toNat) := by
  simp [signBit, BitVec.msb_eq_decide]

/-- The low 31 bits of a word. -/
def lowBits (w : Word) : Nat := w.toNat % 2 ^ 31

theorem lowBits_lt (w : Word) : lowBits w < 2 ^ 31 := Nat.mod_lt _ (by decide)

theorem toNat_eq_lowBits (w : Word) : w.toNat = (if signBit w then 2 ^ 31 else 0) + lowBits w := by
  have := w.isLt
  rw [signBit_eq]
  unfold lowBits
  split <;> simp_all <;> omega

theorem magUnits_eq (w : Word) : magUnits w = magValue (lowBits w) := by
  have := w.isLt
  have h1 : w.toNat / 2 ^ 23 % 2 ^ 8 = lowBits w / 2 ^ 23 := by unfold lowBits; omega
  have h2 : w.toNat % 2 ^ 23 = lowBits w % 2 ^ 23 := by unfold lowBits; omega
  rw [magUnits, expField_eq, fracField_eq, magValue, h1, h2]

theorem isFinite_iff (w : Word) : isFinite w = true ↔ lowBits w < 0x7F800000 := by
  have := w.isLt
  simp only [isFinite, expField_eq, decide_eq_true_eq, lowBits]
  omega

theorem isInf_iff (w : Word) : isInf w = true ↔ lowBits w = 0x7F800000 := by
  have := w.isLt
  simp only [isInf, expField_eq, fracField_eq, Bool.and_eq_true, decide_eq_true_eq, lowBits]
  omega

theorem isNaN_iff (w : Word) : isNaN w = true ↔ 0x7F800000 < lowBits w := by
  have := w.isLt
  simp only [isNaN, expField_eq, fracField_eq, Bool.and_eq_true, decide_eq_true_eq, lowBits]
  omega

theorem isNaN_of_finite {w : Word} (h : isFinite w = true) : isNaN w = false := by
  rw [Bool.eq_false_iff, ne_eq, isNaN_iff]
  rw [isFinite_iff] at h
  omega

theorem isInf_of_finite {w : Word} (h : isFinite w = true) : isInf w = false := by
  rw [Bool.eq_false_iff, ne_eq, isInf_iff]
  rw [isFinite_iff] at h
  omega

/-- Every word is finite, infinite or a NaN. -/
theorem word_cases (w : Word) : isFinite w = true ∨ isInf w = true ∨ isNaN w = true := by
  rw [isFinite_iff, isInf_iff, isNaN_iff]
  omega

theorem pack_toNat (neg : Bool) (m : Nat) (h : m < 2 ^ 31) : (pack neg m).toNat = (if neg then 2 ^ 31 else 0) + m := by
  rw [pack, BitVec.toNat_ofNat]
  split <;> omega

theorem lowBits_pack (neg : Bool) (m : Nat) (h : m < 2 ^ 31) : lowBits (pack neg m) = m := by
  rw [lowBits, pack_toNat _ _ h]
  split <;> omega

theorem signBit_pack (neg : Bool) (m : Nat) (h : m < 2 ^ 31) : signBit (pack neg m) = neg := by
  rw [signBit_eq, pack_toNat _ _ h]
  cases neg <;> simp
  omega

/-- A word is the pack of its sign and its low bits. -/
theorem pack_self (w : Word) : pack (signBit w) (lowBits w) = w := by
  apply BitVec.eq_of_toNat_eq
  rw [pack_toNat _ _ (lowBits_lt w), ← toNat_eq_lowBits]

theorem word_ext {v w : Word} (hs : signBit v = signBit w) (hl : lowBits v = lowBits w) : v = w := by
  rw [← pack_self v, ← pack_self w, hs, hl]

theorem roundMag_lt (n d : Nat) : roundMag n d < 2 ^ 31 := by
  rw [roundMag_eq]; omega

theorem units_eq (w : Word) : units w = if signBit w then -(magValue (lowBits w) : Int) else magValue (lowBits w) := by
  rw [units, magUnits_eq]

theorem natAbs_units (w : Word) : (units w).natAbs = magUnits w := by
  rw [units]; split <;> simp

/-- The magnitude below which a quotient of units rounds to a finite value: 2^128 - 2^103 in units of 2^-149. -/
theorem roundPattern_finite_iff (n d : Nat) (hd : 0 < d) :
    roundPattern n d < 0x7F800000 ↔ n < (2 ^ 128 - 2 ^ 103) * 2 ^ 149 * d := by
  have hmax : magValue 0x7F7FFFFF = (2 ^ 128 - 2 ^ 104) * 2 ^ 149 := by decide
  have hinf : magValue 0x7F800000 = 2 ^ 128 * 2 ^ 149 := by decide
  have hM : (2 ^ 128 - 2 ^ 104) * 2 ^ 149 * d + 2 ^ 252 * d = (2 ^ 128 - 2 ^ 103) * 2 ^ 149 * d := by
    rw [← Nat.add_mul, (by decide : (2 ^ 128 - 2 ^ 104) * 2 ^ 149 + 2 ^ 252 = (2 ^ 128 - 2 ^ 103) * 2 ^ 149)]
  have hI : (2 ^ 128 - 2 ^ 103) * 2 ^ 149 * d + 2 ^ 252 * d = 2 ^ 128 * 2 ^ 149 * d := by
    rw [← Nat.add_mul, (by decide : (2 ^ 128 - 2 ^ 103) * 2 ^ 149 + 2 ^ 252 = 2 ^ 128 * 2 ^ 149)]
  have hpos : 0 < 2 ^ 252 * d := by positivity
  generalize 2 ^ 252 * d = D at *
  generalize hA : (2 ^ 128 - 2 ^ 104) * 2 ^ 149 * d = A at *
  generalize (2 ^ 128 - 2 ^ 103) * 2 ^ 149 * d = B at *
  generalize hC : 2 ^ 128 * 2 ^ 149 * d = C at *
  constructor
  · intro hr
    by_contra hn
    have h1 := roundPattern_nearest n d 0x7F800000 hd
    have hle : magValue (roundPattern n d) ≤ magValue 0x7F7FFFFF := magValue_strictMono.monotone (by omega)
    have hlt : magValue (roundPattern n d) < magValue 0x7F800000 := magValue_strictMono (by omega)
    have hle' := Nat.mul_le_mul_right d hle
    rw [hmax, hA] at hle'
    rw [abs_of_nonpos (by omega : ((magValue (roundPattern n d) * d : Nat) : Int) - n ≤ 0)] at h1
    rw [show magValue 0x7F800000 * d = C by rw [hinf, hC]] at h1
    rcases abs_cases ((C : Int) - n) with ⟨e, _⟩ | ⟨e, _⟩ <;> rw [e] at h1
    · have heq : magValue (roundPattern n d) * d = magValue 0x7F7FFFFF * d := by rw [hmax, hA]; omega
      have hpat := magValue_strictMono.injective (Nat.eq_of_mul_eq_mul_right hd heq)
      have := h1.2 (by omega) hlt.ne'
      omega
    · omega
  · intro hn
    by_contra hr
    have h1 := (roundPattern_nearest n d 0x7F7FFFFF hd).1
    have hge : magValue 0x7F800000 ≤ magValue (roundPattern n d) := magValue_strictMono.monotone (by omega)
    have hge' := Nat.mul_le_mul_right d hge
    rw [hinf, hC] at hge'
    rw [abs_of_nonneg (by omega : (0 : Int) ≤ ((magValue (roundPattern n d) * d : Nat) : Int) - n)] at h1
    rw [show magValue 0x7F7FFFFF * d = A by rw [hmax, hA]] at h1
    rcases abs_cases ((A : Int) - n) with ⟨e, _⟩ | ⟨e, _⟩ <;> rw [e] at h1 <;> omega

/-- The real value of a word as a signed count of units. -/
theorem real_cast (w : Word) : ((real w : ℚ) : ℝ) = (units w : ℝ) / 2 ^ 149 := by
  rw [real]; push_cast; ring

/-- A signed count is never nearer to a signed target than its magnitude is to the target's magnitude. -/
theorem signed_dist (neg sg : Bool) (A N : Int) (hA : 0 ≤ A) (hN : 0 ≤ N) :
    |A - N| ≤ |(if sg then -A else A) - (if neg then -1 else 1) * N| ∧
    (|A - N| = |(if sg then -A else A) - (if neg then -1 else 1) * N| → sg = neg ∨ N = 0 ∨ A = 0) := by
  have hsum : |A - N| ≤ A + N ∧ (|A - N| = A + N → N = 0 ∨ A = 0) := by
    rcases abs_cases (A - N) with ⟨e, _⟩ | ⟨e, _⟩ <;> rw [e] <;> omega
  cases neg <;> cases sg
  · simp
  · rw [show (if true then -A else A) - (if false then -1 else 1) * N = -(A + N) by simp; ring, abs_neg,
      abs_of_nonneg (by omega : 0 ≤ A + N)]
    exact ⟨hsum.1, fun h => .inr (hsum.2 h)⟩
  · rw [show (if false then -A else A) - (if true then -1 else 1) * N = A + N by simp, abs_of_nonneg (by omega : 0 ≤ A + N)]
    exact ⟨hsum.1, fun h => .inr (hsum.2 h)⟩
  · rw [show (if true then -A else A) - (if true then -1 else 1) * N = -(A - N) by simp; ring, abs_neg]
    simp

/-- Packing the rounded magnitude of n / d units gives the nearest binary32, ties to even, while it does not overflow
(R11). -/
theorem pack_roundMag_nearest (neg : Bool) (n d : Nat) (hd : 0 < d) (hfin : n < (2 ^ 128 - 2 ^ 103) * 2 ^ 149 * d) :
    NearestEven (pack neg (roundMag n d)) ((if neg then -1 else 1) * ((n : ℝ) / d / 2 ^ 149)) := by
  have hp := (roundPattern_finite_iff n d hd).2 hfin
  have hmag : roundMag n d = roundPattern n d := by rw [roundMag_eq]; omega
  rw [hmag]
  have hlow := lowBits_pack neg (roundPattern n d) (by omega)
  have hsign := signBit_pack neg (roundPattern n d) (by omega)
  have hdR : (0 : ℝ) < d := by exact_mod_cast hd
  have hpow : (0 : ℝ) < 2 ^ 149 := by positivity
  -- distances in units times d
  have scale : ∀ z : Int, |((z : ℝ) / 2 ^ 149) - (if neg then -1 else 1) * ((n : ℝ) / d / 2 ^ 149)| =
      ((|z * d - (if neg then -1 else 1) * (n : Int)| : Int) : ℝ) / (d * 2 ^ 149) := by
    intro z
    have hpos : (0 : ℝ) < d * 2 ^ 149 := by positivity
    rw [eq_div_iff hpos.ne', Int.cast_abs]
    rw [← abs_of_pos hpos]
    rw [← abs_mul]
    congr 1
    push_cast
    field_simp
  refine ⟨(isFinite_iff _).2 (by rw [hlow]; exact hp), fun v hv => ?_⟩
  rw [real_cast, real_cast, scale, scale]
  have hvfin := (isFinite_iff v).1 hv
  have near := roundPattern_nearest n d (lowBits v) hd
  have hw : units (pack neg (roundPattern n d)) * d - (if neg then -1 else 1) * (n : Int) =
      (if neg then -1 else 1) * (((magValue (roundPattern n d) * d : Nat) : Int) - n) := by
    rw [units_eq, hlow, hsign]
    cases neg
    · push_cast; simp
    · push_cast; simp; ring
  have hwabs : |units (pack neg (roundPattern n d)) * d - (if neg then -1 else 1) * (n : Int)| =
      |((magValue (roundPattern n d) * d : Nat) : Int) - n| := by
    rw [hw]; cases neg <;> simp [abs_sub_comm]
  have hv' := signed_dist neg (signBit v) ((magValue (lowBits v) * d : Nat) : Int) n (by omega) (by omega)
  have huv : units v * d = if signBit v then -((magValue (lowBits v) * d : Nat) : Int)
      else ((magValue (lowBits v) * d : Nat) : Int) := by
    rw [units_eq]; split
    · push_cast; ring
    · push_cast; ring
  rw [← huv] at hv'
  have hposD : (0 : ℝ) < d * 2 ^ 149 := by positivity
  constructor
  · apply div_le_div_of_nonneg_right _ hposD.le
    rw [Int.cast_le, hwabs]
    exact near.1.trans hv'.1
  · intro he hne
    rw [div_left_inj' hposD.ne', Int.cast_inj, hwabs] at he
    have heven : roundPattern n d % 2 = 0 := by
      refine near.2 (le_antisymm near.1 (by rw [he]; exact hv'.1)) fun hmag' => hne ?_
      have h2 := hv'.2 (by rw [hmag']; exact he)
      have hu : units v = units (pack neg (roundPattern n d)) := by
        rw [units_eq, units_eq, hlow, hsign, hmag']
        rcases h2 with h2 | h2 | h2
        · rw [h2]
        · have h0 : magValue (roundPattern n d) = 0 := by
            have hn0 : n = 0 := by omega
            subst hn0
            have := roundPattern_exact 0 d hd
            rw [magValue_small 0 (by decide), Nat.zero_mul] at this
            rw [this, magValue_small 0 (by decide)]
          rw [h0]; simp
        · have h0 : magValue (lowBits v) = 0 := by
            rcases Nat.mul_eq_zero.1 (by omega : magValue (lowBits v) * d = 0) with h | h <;> omega
          rw [← hmag', h0]; simp
      rw [real, real, hu]
    have := toNat_eq_lowBits (pack neg (roundPattern n d))
    rw [hlow, hsign] at this
    rw [this]
    split <;> omega

end Sys2Proof.Machine
end

