-- ==== Sys2Proof/Laws/State.lean ====
section
/-! SUPPORT. One lemma per field per state update, true by rfl. The proofs are written (rfl), so
that simp rewrites with them and never asks the kernel to compare two arithmetic terms by unfolding them. -/

namespace Sys2Proof.Machine

@[simp] theorem writeCoef_coef (v : Word) (s : State) : (writeCoef v s).coef = v := (rfl)
@[simp] theorem writeCoef_prevIn (v : Word) (s : State) : (writeCoef v s).prevIn = s.prevIn := (rfl)
@[simp] theorem writeCoef_prevOut (v : Word) (s : State) : (writeCoef v s).prevOut = s.prevOut := (rfl)
@[simp] theorem writeCoef_trace (v : Word) (s : State) : (writeCoef v s).trace = s.trace := (rfl)
@[simp] theorem writeCoef_responses (v : Word) (s : State) : (writeCoef v s).responses = s.responses := (rfl)
@[simp] theorem writeCoef_inputs (v : Word) (s : State) : (writeCoef v s).inputs = s.inputs := (rfl)
@[simp] theorem writeCoef_answers (v : Word) (s : State) : (writeCoef v s).answers = s.answers := (rfl)
@[simp] theorem writeCoef_draws (v : Word) (s : State) : (writeCoef v s).draws = s.draws := (rfl)

@[simp] theorem writePrevIn_coef (v : Word) (s : State) : (writePrevIn v s).coef = s.coef := (rfl)
@[simp] theorem writePrevIn_prevIn (v : Word) (s : State) : (writePrevIn v s).prevIn = v := (rfl)
@[simp] theorem writePrevIn_prevOut (v : Word) (s : State) : (writePrevIn v s).prevOut = s.prevOut := (rfl)
@[simp] theorem writePrevIn_trace (v : Word) (s : State) : (writePrevIn v s).trace = s.trace := (rfl)
@[simp] theorem writePrevIn_responses (v : Word) (s : State) : (writePrevIn v s).responses = s.responses := (rfl)
@[simp] theorem writePrevIn_inputs (v : Word) (s : State) : (writePrevIn v s).inputs = s.inputs := (rfl)
@[simp] theorem writePrevIn_answers (v : Word) (s : State) : (writePrevIn v s).answers = s.answers := (rfl)
@[simp] theorem writePrevIn_draws (v : Word) (s : State) : (writePrevIn v s).draws = s.draws := (rfl)

@[simp] theorem writePrevOut_coef (v : Word) (s : State) : (writePrevOut v s).coef = s.coef := (rfl)
@[simp] theorem writePrevOut_prevIn (v : Word) (s : State) : (writePrevOut v s).prevIn = s.prevIn := (rfl)
@[simp] theorem writePrevOut_prevOut (v : Word) (s : State) : (writePrevOut v s).prevOut = v := (rfl)
@[simp] theorem writePrevOut_trace (v : Word) (s : State) : (writePrevOut v s).trace = s.trace := (rfl)
@[simp] theorem writePrevOut_responses (v : Word) (s : State) : (writePrevOut v s).responses = s.responses := (rfl)
@[simp] theorem writePrevOut_inputs (v : Word) (s : State) : (writePrevOut v s).inputs = s.inputs := (rfl)
@[simp] theorem writePrevOut_answers (v : Word) (s : State) : (writePrevOut v s).answers = s.answers := (rfl)
@[simp] theorem writePrevOut_draws (v : Word) (s : State) : (writePrevOut v s).draws = s.draws := (rfl)

@[simp] theorem record_coef (e : Event) (s : State) : (record e s).coef = s.coef := (rfl)
@[simp] theorem record_prevIn (e : Event) (s : State) : (record e s).prevIn = s.prevIn := (rfl)
@[simp] theorem record_prevOut (e : Event) (s : State) : (record e s).prevOut = s.prevOut := (rfl)
@[simp] theorem record_trace (e : Event) (s : State) : (record e s).trace = s.trace ++ [e] := (rfl)
@[simp] theorem record_responses (e : Event) (s : State) : (record e s).responses = s.responses := (rfl)
@[simp] theorem record_inputs (e : Event) (s : State) : (record e s).inputs = s.inputs := (rfl)
@[simp] theorem record_answers (e : Event) (s : State) : (record e s).answers = s.answers := (rfl)
@[simp] theorem record_draws (e : Event) (s : State) : (record e s).draws = s.draws := (rfl)

@[simp] theorem respond_coef (st : Status) (r : Word) (s : State) : (respond st r s).coef = s.coef := (rfl)
@[simp] theorem respond_prevIn (st : Status) (r : Word) (s : State) : (respond st r s).prevIn = s.prevIn := (rfl)
@[simp] theorem respond_prevOut (st : Status) (r : Word) (s : State) : (respond st r s).prevOut = s.prevOut := (rfl)
@[simp] theorem respond_trace (st : Status) (r : Word) (s : State) : (respond st r s).trace = s.trace := (rfl)
@[simp] theorem respond_responses (st : Status) (r : Word) (s : State) : (respond st r s).responses = s.responses ++ [⟨st, r⟩] := (rfl)
@[simp] theorem respond_inputs (st : Status) (r : Word) (s : State) : (respond st r s).inputs = s.inputs := (rfl)
@[simp] theorem respond_answers (st : Status) (r : Word) (s : State) : (respond st r s).answers = s.answers := (rfl)
@[simp] theorem respond_draws (st : Status) (r : Word) (s : State) : (respond st r s).draws = s.draws := (rfl)

@[simp] theorem latch_coef (ans : HostAnswers) (rest : List HostInput) (s : State) : (latch ans rest s).coef = s.coef := (rfl)
@[simp] theorem latch_prevIn (ans : HostAnswers) (rest : List HostInput) (s : State) : (latch ans rest s).prevIn = s.prevIn := (rfl)
@[simp] theorem latch_prevOut (ans : HostAnswers) (rest : List HostInput) (s : State) : (latch ans rest s).prevOut = s.prevOut := (rfl)
@[simp] theorem latch_trace (ans : HostAnswers) (rest : List HostInput) (s : State) : (latch ans rest s).trace = s.trace := (rfl)
@[simp] theorem latch_responses (ans : HostAnswers) (rest : List HostInput) (s : State) : (latch ans rest s).responses = s.responses := (rfl)
@[simp] theorem latch_inputs (ans : HostAnswers) (rest : List HostInput) (s : State) : (latch ans rest s).inputs = rest := (rfl)
@[simp] theorem latch_answers (ans : HostAnswers) (rest : List HostInput) (s : State) : (latch ans rest s).answers = ans := (rfl)
@[simp] theorem latch_draws (ans : HostAnswers) (rest : List HostInput) (s : State) : (latch ans rest s).draws = s.draws := (rfl)

@[simp] theorem processSample_coef (x : Word) (s : State) : (processSample x s).coef = s.coef := (rfl)
@[simp] theorem processSample_prevIn (x : Word) (s : State) : (processSample x s).prevIn = x := (rfl)
@[simp] theorem processSample_prevOut (x : Word) (s : State) : (processSample x s).prevOut = recurrence x s := (rfl)
@[simp] theorem processSample_trace (x : Word) (s : State) : (processSample x s).trace = s.trace := (rfl)
@[simp] theorem processSample_responses (x : Word) (s : State) : (processSample x s).responses = s.responses := (rfl)
@[simp] theorem processSample_inputs (x : Word) (s : State) : (processSample x s).inputs = s.inputs := (rfl)
@[simp] theorem processSample_answers (x : Word) (s : State) : (processSample x s).answers = s.answers := (rfl)
@[simp] theorem processSample_draws (x : Word) (s : State) : (processSample x s).draws = s.draws := (rfl)

@[simp] theorem takeDraw_coef (y : Word) (s : State) : (takeDraw y s).coef = s.coef := (rfl)
@[simp] theorem takeDraw_prevIn (y : Word) (s : State) : (takeDraw y s).prevIn = s.prevIn := (rfl)
@[simp] theorem takeDraw_prevOut (y : Word) (s : State) : (takeDraw y s).prevOut = s.prevOut := (rfl)
@[simp] theorem takeDraw_trace (y : Word) (s : State) : (takeDraw y s).trace = s.trace := (rfl)
@[simp] theorem takeDraw_responses (y : Word) (s : State) : (takeDraw y s).responses = s.responses := (rfl)
@[simp] theorem takeDraw_inputs (y : Word) (s : State) : (takeDraw y s).inputs = s.inputs := (rfl)
@[simp] theorem takeDraw_answers (y : Word) (s : State) : (takeDraw y s).answers = s.answers := (rfl)

theorem takeDraw_of_nan (y : Word) (s : State) (h : isNaN y = true) : takeDraw y s = { s with draws := s.draws + 1 } := by
  simp [takeDraw, h]

theorem takeDraw_of_number (y : Word) (s : State) (h : isNaN y = false) : takeDraw y s = s := by
  simp [takeDraw, h]

@[simp] theorem pathState_coef (x : Sample) (s : State) : (pathState x s).coef = s.coef := by
  unfold pathState; simp
@[simp] theorem pathState_prevIn (x : Sample) (s : State) : (pathState x s).prevIn = i16ToF32 x := by
  unfold pathState; simp
@[simp] theorem pathState_prevOut (x : Sample) (s : State) : (pathState x s).prevOut = recurrence (i16ToF32 x) s := by
  unfold pathState; simp
@[simp] theorem pathState_trace (x : Sample) (s : State) : (pathState x s).trace = s.trace := by
  unfold pathState; simp
@[simp] theorem pathState_responses (x : Sample) (s : State) : (pathState x s).responses = s.responses := by
  unfold pathState; simp
@[simp] theorem pathState_inputs (x : Sample) (s : State) : (pathState x s).inputs = s.inputs := by
  unfold pathState; simp
@[simp] theorem pathState_answers (x : Sample) (s : State) : (pathState x s).answers = s.answers := by
  unfold pathState; simp

theorem takeDraw_draws (y : Word) (s : State) : (takeDraw y s).draws = if isNaN y then s.draws + 1 else s.draws := by
  simp only [takeDraw]

theorem le_takeDraw_draws (y : Word) (s : State) : s.draws ≤ (takeDraw y s).draws := by
  rw [takeDraw_draws]; split <;> omega

theorem le_pathState_draws (x : Sample) (s : State) : s.draws ≤ (pathState x s).draws := by
  rw [pathState]; exact le_takeDraw_draws _ (processSample (i16ToF32 x) s)

/-- The recurrence reads the three registers and nothing else (R121). -/
theorem recurrence_congr (x : Word) {s t : State} (h1 : s.coef = t.coef) (h2 : s.prevIn = t.prevIn)
    (h3 : s.prevOut = t.prevOut) : recurrence x s = recurrence x t := by simp only [recurrence, h1, h2, h3]

/-- The sample path reads the three registers and, for a NaN, the count of draws (R145). -/
theorem pathSample_congr (x : Sample) {s t : State} (h1 : s.coef = t.coef) (h2 : s.prevIn = t.prevIn)
    (h3 : s.prevOut = t.prevOut) (h4 : s.draws = t.draws) : pathSample x s = pathSample x t := by
  simp only [pathSample, quantized, processSample_draws, h4, recurrence_congr _ h1 h2 h3]

theorem pathState_draws_congr (x : Sample) {s t : State} (h1 : s.coef = t.coef) (h2 : s.prevIn = t.prevIn)
    (h3 : s.prevOut = t.prevOut) (h4 : s.draws = t.draws) : (pathState x s).draws = (pathState x t).draws := by
  simp only [pathState, takeDraw_draws, processSample_draws, h4, recurrence_congr _ h1 h2 h3]

@[simp] theorem engineReset_coef (s : State) : (engineReset s).coef = coefRom fcDefault fsDefault := by
  simp only [engineReset, writeCoef, writePrevIn, writePrevOut]
@[simp] theorem engineReset_prevIn (s : State) : (engineReset s).prevIn = plusZero := by
  simp only [engineReset, writeCoef, writePrevIn, writePrevOut]
@[simp] theorem engineReset_prevOut (s : State) : (engineReset s).prevOut = plusZero := by
  simp only [engineReset, writeCoef, writePrevIn, writePrevOut]
@[simp] theorem engineReset_trace (s : State) : (engineReset s).trace = [] := by
  simp only [engineReset, writeCoef, writePrevIn, writePrevOut]
@[simp] theorem engineReset_responses (s : State) : (engineReset s).responses = [] := by
  simp only [engineReset, writeCoef, writePrevIn, writePrevOut]
@[simp] theorem engineReset_inputs (s : State) : (engineReset s).inputs = s.inputs := by
  simp only [engineReset, writeCoef, writePrevIn, writePrevOut]
@[simp] theorem engineReset_answers (s : State) : (engineReset s).answers = s.answers := by
  simp only [engineReset, writeCoef, writePrevIn, writePrevOut]
@[simp] theorem engineReset_draws (s : State) : (engineReset s).draws = s.draws := by
  simp only [engineReset, writeCoef, writePrevIn, writePrevOut]

@[simp] theorem hostAcquire_eq_record (s : State) : hostAcquire s = record (.acquire (acquireAnswer s)) s := (rfl)
@[simp] theorem hostAllocate_eq_record (s : State) : hostAllocate s = record (.allocate (allocateAnswer s)) s := (rfl)
@[simp] theorem hostRelease_eq_record (blk : InBlock) (s : State) : hostRelease blk s = record (.release blk) s := (rfl)
@[simp] theorem hostDeliver_eq_record (h : OutHandle) (qs : List Sample) (s : State) : hostDeliver h qs s = record (.deliver h qs) s := (rfl)
@[simp] theorem inRead_eq_record (blk : InBlock) (i : Nat) (v : Sample) (s : State) : inRead blk i v s = record (.inRead blk.handle i v) s := (rfl)
@[simp] theorem outWrite_eq_record (h : OutHandle) (i : Nat) (v : Sample) (s : State) : outWrite h i v s = record (.outWrite h.handle i v) s := (rfl)

@[simp] theorem raiseIllegal_eq_respond (s : State) : raiseIllegal s = respond .illegal 0#32 s := (rfl)

end Sys2Proof.Machine
end

