-- ==== Sys2Proof/Laws/Arithmetic.lean ====
section
/-! SUPPORT. What each arithmetic primitive, the recurrence and the ROM can give (R11, R100-R103, R121), one lemma per case. -/

namespace Sys2Proof.Machine

@[simp] theorem isNaN_canonicalNaN : isNaN canonicalNaN = true := by decide

theorem lowBits_neg32 (w : Word) : lowBits (neg32 w) = lowBits w := by
  have h : (neg32 w).toNat = w.toNat ^^^ 2 ^ 31 := by rw [neg32, BitVec.toNat_xor]; rfl
  rw [lowBits, lowBits, h, Nat.xor_mod_two_pow]
  simp

theorem signBit_neg32 (w : Word) : signBit (neg32 w) = !signBit w := by
  rw [signBit, neg32, BitVec.msb_xor, signBit, show (0x80000000#32).msb = true by decide, Bool.xor_true]

theorem isNaN_neg32 (w : Word) : isNaN (neg32 w) = isNaN w := by
  rw [Bool.eq_iff_iff, isNaN_iff, isNaN_iff, lowBits_neg32]

theorem isInf_neg32 (w : Word) : isInf (neg32 w) = isInf w := by
  rw [Bool.eq_iff_iff, isInf_iff, isInf_iff, lowBits_neg32]

theorem isFinite_neg32 (w : Word) : isFinite (neg32 w) = isFinite w := by
  rw [Bool.eq_iff_iff, isFinite_iff, isFinite_iff, lowBits_neg32]

theorem units_neg32 (w : Word) : units (neg32 w) = -units w := by
  rw [units_eq, units_eq, lowBits_neg32, signBit_neg32]
  cases signBit w <;> simp

/-- No rounded magnitude is a NaN. -/
theorem isNaN_pack_roundMag (neg : Bool) (n d : Nat) : isNaN (pack neg (roundMag n d)) = false := by
  rw [Bool.eq_false_iff, ne_eq, isNaN_iff, lowBits_pack _ _ (roundMag_lt n d), roundMag_eq]
  omega

theorem isNaN_pack_inf (neg : Bool) : isNaN (pack neg 0x7F800000) = false := by cases neg <;> decide

/-- A sum with a NaN operand (R11). -/
theorem add32_of_nan (a b : Word) (h : isNaN a = true ∨ isNaN b = true) : add32 a b = canonicalNaN := by
  have h' : (isNaN a || isNaN b) = true := by simpa using h
  simp only [add32, h', if_true]

/-- A difference with a NaN operand (R11). -/
theorem sub32_of_nan (a b : Word) (h : isNaN a = true ∨ isNaN b = true) : sub32 a b = canonicalNaN :=
  add32_of_nan a (neg32 b) (by rwa [isNaN_neg32])

/-- A product with a NaN operand (R11). -/
theorem mul32_of_nan (a b : Word) (h : isNaN a = true ∨ isNaN b = true) : mul32 a b = canonicalNaN := by
  have h' : (isNaN a || isNaN b) = true := by simpa using h
  simp only [mul32, h', if_true]

/-- A sum of finite operands (R11). -/
theorem add32_of_finite (a b : Word) (ha : isFinite a = true) (hb : isFinite b = true) :
    add32 a b = pack (if units a + units b = 0 then signBit a && signBit b else decide (units a + units b < 0))
      (roundMag (units a + units b).natAbs 1) := by
  simp only [add32, isNaN_of_finite ha, isNaN_of_finite hb, isInf_of_finite ha, isInf_of_finite hb, Bool.or_self,
    Bool.false_eq_true, if_false]

/-- A product of finite operands (R11). -/
theorem mul32_of_finite (a b : Word) (ha : isFinite a = true) (hb : isFinite b = true) :
    mul32 a b = pack (signBit a != signBit b) (roundMag (magUnits a * magUnits b) (2 ^ 149)) := by
  simp only [mul32, isNaN_of_finite ha, isNaN_of_finite hb, isInf_of_finite ha, isInf_of_finite hb, Bool.or_self,
    Bool.false_eq_true, if_false]

/-- A NaN product is the NaN 0x7FC00000 (R11, D8). -/
theorem mul32_nan_canonical (a b : Word) (h : isNaN (mul32 a b) = true) : mul32 a b = canonicalNaN := by
  by_cases hn : isNaN a = true ∨ isNaN b = true
  · exact mul32_of_nan a b hn
  · have hf : (isNaN a || isNaN b) = false := by simpa using hn
    simp only [mul32, hf, Bool.false_eq_true, if_false] at h ⊢
    split
    · split
      · rfl
      · simp_all [isNaN_pack_inf]
    · split
      · split
        · rfl
        · simp_all [isNaN_pack_inf]
      · simp_all [isNaN_pack_roundMag]

/-- A NaN in COEF, in the history or in x makes the y of the recurrence the NaN 0x7FC00000 (R121, R11). -/
theorem recurrence_of_nan (x : Word) (s : State)
    (h : isNaN s.coef = true ∨ isNaN s.prevIn = true ∨ isNaN s.prevOut = true ∨ isNaN x = true) :
    recurrence x s = canonicalNaN := by
  rw [recurrence]
  rcases h with h | h | h | h
  · exact mul32_of_nan _ _ (.inl h)
  · rw [sub32_of_nan _ _ (.inr h)]; exact mul32_of_nan _ _ (.inr isNaN_canonicalNaN)
  · rw [add32_of_nan _ _ (.inl h), sub32_of_nan _ _ (.inl isNaN_canonicalNaN)]
    exact mul32_of_nan _ _ (.inr isNaN_canonicalNaN)
  · rw [add32_of_nan _ _ (.inr h), sub32_of_nan _ _ (.inl isNaN_canonicalNaN)]
    exact mul32_of_nan _ _ (.inr isNaN_canonicalNaN)

/-- Everything the ROM can give for clamped operands (R102, R103). -/
theorem coefRomClamped_cases (fc fs : Word) :
    coefRomClamped fc fs = canonicalNaN ∨ coefRomClamped fc fs = plusZero ∨ coefRomClamped fc fs = one32 ∨
    (isFinite fc = true ∧ isFinite fs = true ∧ coefRomClamped fc fs = coefRomFinite fc fs) := by
  have hfin : ∀ w : Word, isNaN w = false → isInf w = false → isFinite w = true := fun w h1 h2 => by
    rcases word_cases w with h | h | h
    · exact h
    · rw [h2] at h; cases h
    · rw [h1] at h; cases h
  unfold coefRomClamped
  cases hc : isNaN fc
  · cases hs : isNaN fs
    · cases hic : isInf fc
      · cases his : isInf fs
        · exact .inr (.inr (.inr ⟨hfin fc hc hic, hfin fs hs his, rfl⟩))
        · exact .inr (.inr (.inl rfl))
      · cases his : isInf fs
        · exact .inr (.inl rfl)
        · exact .inl rfl
    · exact .inl rfl
  · exact .inl rfl

end Sys2Proof.Machine
end

