-- ==== Sys2Proof/Laws/Block.lean ====
section
/-! SUPPORT. What the block loop does (R163): it leaves everything but the history, the draws and the trace alone, and adds
exactly the sample reads and writes; and everything PROCB can answer. -/

namespace Sys2Proof.Machine

@[simp] theorem blockSample_coef (blk : InBlock) (h : OutHandle) (i : Nat) (x : Sample) (s : State) :
    (blockSample blk h i x s).coef = s.coef := by simp [blockSample]

@[simp] theorem blockSample_prevIn (blk : InBlock) (h : OutHandle) (i : Nat) (x : Sample) (s : State) :
    (blockSample blk h i x s).prevIn = i16ToF32 x := by simp [blockSample]

@[simp] theorem blockSample_prevOut (blk : InBlock) (h : OutHandle) (i : Nat) (x : Sample) (s : State) :
    (blockSample blk h i x s).prevOut = recurrence (i16ToF32 x) s := by simp [blockSample, recurrence]

@[simp] theorem blockSample_responses (blk : InBlock) (h : OutHandle) (i : Nat) (x : Sample) (s : State) :
    (blockSample blk h i x s).responses = s.responses := by simp [blockSample]

@[simp] theorem blockSample_inputs (blk : InBlock) (h : OutHandle) (i : Nat) (x : Sample) (s : State) :
    (blockSample blk h i x s).inputs = s.inputs := by simp [blockSample]

@[simp] theorem blockSample_answers (blk : InBlock) (h : OutHandle) (i : Nat) (x : Sample) (s : State) :
    (blockSample blk h i x s).answers = s.answers := by simp [blockSample]

@[simp] theorem blockSample_trace (blk : InBlock) (h : OutHandle) (i : Nat) (x : Sample) (s : State) :
    (blockSample blk h i x s).trace =
      s.trace ++ [.inRead blk.handle i x, .outWrite h.handle i (pathSample x (inRead blk i x s))] := by
  simp [blockSample]

@[simp] theorem blockSample_draws (blk : InBlock) (h : OutHandle) (i : Nat) (x : Sample) (s : State) :
    (blockSample blk h i x s).draws = (pathState x s).draws := by
  simp only [blockSample, outWrite_eq_record, record_draws]
  exact pathState_draws_congr x (by simp) (by simp) (by simp) (by simp)

/-- A step of the block loop, from the other end: a fold over the samples keeps what one sample keeps. -/
theorem blockState_keeps {α : Type} (f : State → α) (blk : InBlock) (h : OutHandle)
    (keep : ∀ i x s, f (blockSample blk h i x s) = f s) (xs : List Sample) :
    ∀ (i : Nat) (s : State), f (blockState blk h i xs s) = f s := by
  induction xs with
  | nil => intro i s; rfl
  | cons x xs ih => intro i s; rw [blockState, ih, keep]

@[simp] theorem blockState_coef (blk : InBlock) (h : OutHandle) (i : Nat) (xs : List Sample) (s : State) :
    (blockState blk h i xs s).coef = s.coef := blockState_keeps State.coef blk h (blockSample_coef blk h) xs i s

@[simp] theorem blockState_responses (blk : InBlock) (h : OutHandle) (i : Nat) (xs : List Sample) (s : State) :
    (blockState blk h i xs s).responses = s.responses :=
  blockState_keeps State.responses blk h (blockSample_responses blk h) xs i s

@[simp] theorem blockState_inputs (blk : InBlock) (h : OutHandle) (i : Nat) (xs : List Sample) (s : State) :
    (blockState blk h i xs s).inputs = s.inputs := blockState_keeps State.inputs blk h (blockSample_inputs blk h) xs i s

@[simp] theorem blockState_answers (blk : InBlock) (h : OutHandle) (i : Nat) (xs : List Sample) (s : State) :
    (blockState blk h i xs s).answers = s.answers :=
  blockState_keeps State.answers blk h (blockSample_answers blk h) xs i s

@[simp] theorem blockOutput_length (blk : InBlock) (h : OutHandle) (xs : List Sample) :
    ∀ (i : Nat) (s : State), (blockOutput blk h i xs s).length = xs.length := by
  induction xs with
  | nil => intro i s; rfl
  | cons x xs ih => intro i s; rw [blockOutput, List.length_cons, ih, List.length_cons]

/-- The loop adds the reads and writes of its samples, in index order, to the trace (R45, R50 (c)). -/
@[simp] theorem blockState_trace (blk : InBlock) (h : OutHandle) (xs : List Sample) :
    ∀ (i : Nat) (s : State),
      (blockState blk h i xs s).trace = s.trace ++ sampleEvents blk h i xs (blockOutput blk h i xs s) := by
  induction xs with
  | nil => intro i s; simp [blockState, sampleEvents]
  | cons x xs ih =>
    intro i s
    rw [blockState, ih, blockOutput, sampleEvents, blockSample_trace, List.append_assoc]
    rfl

/-- A predicate on states that every sample keeps is kept by the loop (R163). -/
theorem blockState_induction (P : State → Prop) (blk : InBlock) (h : OutHandle)
    (keep : ∀ i x s, P s → P (blockSample blk h i x s)) (xs : List Sample) :
    ∀ (i : Nat) (s : State), P s → P (blockState blk h i xs s) := by
  induction xs with
  | nil => intro i s hs; exact hs
  | cons x xs ih => intro i s hs; exact ih _ _ (keep i x s hs)

theorem le_blockState_draws (blk : InBlock) (h : OutHandle) (xs : List Sample) (i : Nat) (s : State) :
    s.draws ≤ (blockState blk h i xs s).draws :=
  blockState_induction (fun t => s.draws ≤ t.draws) blk h
    (fun i x t ht => by rw [blockSample_draws]; exact le_trans ht (le_pathState_draws x t)) xs i s le_rfl

/-- The loop reads the three registers and the count of draws and nothing else of the state (R163). -/
theorem block_congr (blk : InBlock) (h : OutHandle) (xs : List Sample) : ∀ (i : Nat) (s t : State),
    s.coef = t.coef → s.prevIn = t.prevIn → s.prevOut = t.prevOut → s.draws = t.draws →
    blockOutput blk h i xs s = blockOutput blk h i xs t ∧
    (blockState blk h i xs s).prevIn = (blockState blk h i xs t).prevIn ∧
    (blockState blk h i xs s).prevOut = (blockState blk h i xs t).prevOut ∧
    (blockState blk h i xs s).draws = (blockState blk h i xs t).draws := by
  induction xs with
  | nil => intro i s t _ h2 h3 h4; exact ⟨rfl, h2, h3, h4⟩
  | cons x xs ih =>
    intro i s t h1 h2 h3 h4
    obtain ⟨a, b, c, d⟩ := ih (i + 1) (blockSample blk h i x s) (blockSample blk h i x t) (by simp [h1]) (by simp)
      (by simp only [blockSample_prevOut]; exact recurrence_congr _ h1 h2 h3)
      (by simp only [blockSample_draws]; exact pathState_draws_congr x h1 h2 h3 h4)
    refine ⟨?_, b, c, d⟩
    rw [blockOutput, blockOutput, a,
      pathSample_congr x (s := inRead blk i x s) (t := inRead blk i x t) (by simp [h1]) (by simp [h2]) (by simp [h3])
        (by simp [h4])]

/-- The sample reads and writes are not in the event history (R46). -/
@[simp] theorem filter_sampleEvents (blk : InBlock) (h : OutHandle) (xs : List Sample) :
    ∀ (i : Nat) (qs : List Sample), (sampleEvents blk h i xs qs).filter Event.isHostCall = [] := by
  induction xs with
  | nil => intro i qs; rw [sampleEvents]; rfl
  | cons x xs ih =>
    intro i qs
    cases qs with
    | nil => rfl
    | cons q qs => exact ih (i + 1) qs

/-- Everything PROCB can answer (R161, R162, R163, I2). -/
theorem execProcb_cases (s : State) :
    (s.answers.acquire = none ∧
      execProcb s = .next (respond .ok (codeResult (outcomeCode .noInput)) (hostAcquire s))) ∨
    ∃ blk, s.answers.acquire = some blk ∧
      ((blk.dutyMet = false ∧ execProcb s = .refused .blockLength) ∨
       (blk.dutyMet = true ∧ s.answers.allocate = none ∧
          execProcb s = .next (respond .ok (codeResult (outcomeCode .noOutput))
            (hostRelease blk (hostAllocate (hostAcquire s))))) ∨
       ∃ h, blk.dutyMet = true ∧ s.answers.allocate = some h ∧
         ((h.dutyMet = false ∧ execProcb s = .refused .outputSlots) ∨
          (h.dutyMet = true ∧ execProcb s = .next (processBlock blk h (hostAllocate (hostAcquire s)))))) := by
  have hall : allocateAnswer (hostAcquire s) = s.answers.allocate := by simp [allocateAnswer]
  unfold execProcb acquireAnswer
  cases ha : s.answers.acquire with
  | none => exact .inl ⟨rfl, rfl⟩
  | some blk =>
    refine .inr ⟨blk, rfl, ?_⟩
    cases hd : blk.dutyMet with
    | false => exact .inl ⟨rfl, by simp [hd]⟩
    | true =>
      right
      cases hb : s.answers.allocate with
      | none => exact .inl ⟨rfl, rfl, by simp only [hd, if_true, allocateAndProcess, hall, hb]⟩
      | some h =>
        refine .inr ⟨h, rfl, rfl, ?_⟩
        cases hh : h.dutyMet with
        | false => exact .inl ⟨rfl, by simp only [hd, if_true, allocateAndProcess, hall, hb, hh, Bool.false_eq_true, if_false]⟩
        | true => exact .inr ⟨rfl, by simp only [hd, if_true, allocateAndProcess, hall, hb, hh]⟩

@[simp] theorem processBlock_coef (blk : InBlock) (h : OutHandle) (s : State) :
    (processBlock blk h s).coef = s.coef := by simp [processBlock]

@[simp] theorem processBlock_prevIn (blk : InBlock) (h : OutHandle) (s : State) :
    (processBlock blk h s).prevIn = (blockState blk h 0 blk.samples s).prevIn := by simp [processBlock]

@[simp] theorem processBlock_prevOut (blk : InBlock) (h : OutHandle) (s : State) :
    (processBlock blk h s).prevOut = (blockState blk h 0 blk.samples s).prevOut := by simp [processBlock]

@[simp] theorem processBlock_draws (blk : InBlock) (h : OutHandle) (s : State) :
    (processBlock blk h s).draws = (blockState blk h 0 blk.samples s).draws := by simp [processBlock]

@[simp] theorem processBlock_inputs (blk : InBlock) (h : OutHandle) (s : State) :
    (processBlock blk h s).inputs = s.inputs := by simp [processBlock]

@[simp] theorem processBlock_answers (blk : InBlock) (h : OutHandle) (s : State) :
    (processBlock blk h s).answers = s.answers := by simp [processBlock]

@[simp] theorem processBlock_responses (blk : InBlock) (h : OutHandle) (s : State) :
    (processBlock blk h s).responses = s.responses ++ [⟨.ok, 0#32⟩] := by
  simp [processBlock, codeResult, outcomeCode]

@[simp] theorem processBlock_trace (blk : InBlock) (h : OutHandle) (s : State) :
    (processBlock blk h s).trace = s.trace ++
      (sampleEvents blk h 0 blk.samples (blockOutput blk h 0 blk.samples s) ++
        [.release blk, .deliver h (blockOutput blk h 0 blk.samples s)]) := by
  simp [processBlock]

end Sys2Proof.Machine
end

