-- ==== Sys2Proof/Laws/PerInstr.lean ====
section
/-! SUPPORT. The per-instruction family Encoding, about an instruction as syntax: its encoding is a legal command whose
command word is its opcode alone, and an operand word it does not use is zero (R61, R62, R64, R70). -/

namespace Sys2Proof.Laws

/-- What holds of an instruction's encoding: only the commands that read a word put anything there. -/
def Encoding.Statement (i : Instr) : Prop :=
  (encode i).legal = true ∧ (encode i).cmd.toNat ≤ 9 ∧
  ((encode i).a ≠ 0#32 →
    (∃ fc fs, i = .config fc fs) ∨ (∃ x, i = .procf x) ∨ (∃ x, i = .procs x) ∨ ∃ y, i = .quant y) ∧
  ((encode i).b ≠ 0#32 → ∃ fc fs, i = .config fc fs)

theorem Encoding.nop : Encoding.Statement .nop := by
  simp [Encoding.Statement, encode, opcodeWord, operandA, operandB, Command.legal]

theorem Encoding.config (cutoff rate : Word) : Encoding.Statement (.config cutoff rate) := by
  simp [Encoding.Statement, encode, opcodeWord, operandA, operandB, Command.legal]

theorem Encoding.reset : Encoding.Statement .reset := by
  simp [Encoding.Statement, encode, opcodeWord, operandA, operandB, Command.legal]

theorem Encoding.procf (x : Word) : Encoding.Statement (.procf x) := by
  simp [Encoding.Statement, encode, opcodeWord, operandA, operandB, Command.legal]

theorem Encoding.procs (x : Sample) : Encoding.Statement (.procs x) := by
  simp [Encoding.Statement, encode, opcodeWord, operandA, operandB, Command.legal]

theorem Encoding.quant (y : Word) : Encoding.Statement (.quant y) := by
  simp [Encoding.Statement, encode, opcodeWord, operandA, operandB, Command.legal]

theorem Encoding.procb : Encoding.Statement .procb := by
  simp [Encoding.Statement, encode, opcodeWord, operandA, operandB, Command.legal]

theorem Encoding.rdcoef : Encoding.Statement .rdcoef := by
  simp [Encoding.Statement, encode, opcodeWord, operandA, operandB, Command.legal]

theorem Encoding.rdpin : Encoding.Statement .rdpin := by
  simp [Encoding.Statement, encode, opcodeWord, operandA, operandB, Command.legal]

theorem Encoding.rdpout : Encoding.Statement .rdpout := by
  simp [Encoding.Statement, encode, opcodeWord, operandA, operandB, Command.legal]

end Sys2Proof.Laws
end

