-- ==== Sys2Proof/Laws/Pi.lean ====
section
/-! SUPPORT. Where π lies between two consecutive convergents, and that no fraction of small denominator lies between π and
`piNum / piDen`: the reason why the ROM may use that fraction for π (R102; log entry 9). -/

namespace Sys2Proof.Machine

/-- A partial sum of the arctangent series at 1 / x. -/
def arctanSum (x : Nat) : Nat → ℚ
  | 0 => 0
  | n + 1 => arctanSum x n + (-1) ^ n / ((2 * n + 1) * x ^ (2 * n + 1))

theorem arctanSum_cast (x n : Nat) :
    ((arctanSum x n : ℚ) : ℝ) = ∑ i ∈ Finset.range n, (-1) ^ i * ((1 : ℝ) / ((2 * i + 1) * x ^ (2 * i + 1))) := by
  induction n with
  | zero => simp [arctanSum]
  | succ n ih =>
    rw [arctanSum, Finset.sum_range_succ, ← ih]
    push_cast
    ring

theorem arctan_inv_bounds (x : Nat) (hx : 2 ≤ x) (k : Nat) :
    ((arctanSum x (2 * k) : ℚ) : ℝ) ≤ Real.arctan ((x : ℝ)⁻¹) ∧
    Real.arctan ((x : ℝ)⁻¹) ≤ ((arctanSum x (2 * k + 1) : ℚ) : ℝ) := by
  have hx' : (2 : ℝ) ≤ x := by exact_mod_cast hx
  have hpos : (0 : ℝ) < x := by linarith
  have hnorm : ‖((x : ℝ)⁻¹)‖ < 1 := by
    rw [Real.norm_eq_abs, abs_of_pos (inv_pos.2 hpos)]
    exact inv_lt_one_of_one_lt₀ (by linarith)
  have hsum := (Real.hasSum_arctan hnorm).tendsto_sum_nat
  have hterm : (fun n => ∑ i ∈ Finset.range n, (-1 : ℝ) ^ i * (x : ℝ)⁻¹ ^ (2 * i + 1) / ↑(2 * i + 1)) =
      fun n => ∑ i ∈ Finset.range n, (-1) ^ i * ((1 : ℝ) / ((2 * i + 1) * x ^ (2 * i + 1))) := by
    funext n
    refine Finset.sum_congr rfl fun i _ => ?_
    have h1 : ((2 : ℝ) * i + 1) ≠ 0 := by positivity
    rw [inv_pow]
    push_cast
    field_simp
  rw [hterm] at hsum
  have hanti : Antitone fun i : Nat => (1 : ℝ) / ((2 * i + 1) * x ^ (2 * i + 1)) := by
    refine antitone_nat_of_succ_le fun i => ?_
    apply one_div_le_one_div_of_le (by positivity)
    apply mul_le_mul _ (pow_le_pow_right₀ (by linarith) (by omega)) (by positivity) (by positivity)
    push_cast; linarith
  rw [arctanSum_cast, arctanSum_cast]
  exact ⟨hanti.alternating_series_le_tendsto hsum k, hanti.tendsto_le_alternating_series hsum k⟩

/-- The numerator of the next convergent of π, which lies above π. -/
def piNumAbove : Nat := 0xa8ad5a65e58873fd3727e6dd3788ff0b2670b9636722db635

/-- The denominator of the next convergent of π. -/
def piDenAbove : Nat := 0x35b10d3565d6a272b9c0a17673a7dc911c9c256f5996a0115

/-- π lies strictly between the two convergents. -/
theorem pi_between : ((piNum : ℝ) / piDen < Real.pi) ∧ Real.pi < (piNumAbove : ℝ) / piDenAbove := by
  have h5 := arctan_inv_bounds 5 (by decide) 45
  have h239 := arctan_inv_bounds 239 (by decide) 14
  have hmachin := Real.four_mul_arctan_inv_5_sub_arctan_inv_239
  have hlo : (piNum : ℚ) / piDen < 4 * (4 * arctanSum 5 (2 * 45) - arctanSum 239 (2 * 14 + 1)) := by
    decide +kernel
  have hhi : 4 * (4 * arctanSum 5 (2 * 45 + 1) - arctanSum 239 (2 * 14)) < (piNumAbove : ℚ) / piDenAbove := by
    decide +kernel
  have hlo' : ((piNum : ℝ) / piDen) < 4 * (4 * (arctanSum 5 (2 * 45) : ℚ) - (arctanSum 239 (2 * 14 + 1) : ℚ)) := by
    have h := (Rat.cast_lt (K := ℝ)).2 hlo
    push_cast at h
    exact h
  have hhi' : 4 * (4 * ((arctanSum 5 (2 * 45 + 1) : ℚ) : ℝ) - (arctanSum 239 (2 * 14) : ℚ)) <
      (piNumAbove : ℝ) / piDenAbove := by
    have h := (Rat.cast_lt (K := ℝ)).2 hhi
    push_cast at h
    exact h
  constructor <;> linarith [h5.1, h5.2, h239.1, h239.2]

/-- The convergents are neighbours. -/
theorem pi_neighbours : piNumAbove * piDen = piNum * piDenAbove + 1 := by decide

/-- A fraction with a denominator below that of the convergent is on the same side of π as of the convergent. -/
theorem lt_pi_iff (p q : Nat) (hq : 0 < q) (hlt : q < piDen) :
    ((p : ℝ) / q < Real.pi ↔ p * piDen < piNum * q) ∧ (Real.pi < (p : ℝ) / q ↔ piNum * q < p * piDen) := by
  have hD : 0 < piDen := by decide
  have hDA : 0 < piDenAbove := by decide
  have hqR : (0 : ℝ) < q := by exact_mod_cast hq
  have hDR : (0 : ℝ) < piDen := by exact_mod_cast hD
  have hDAR : (0 : ℝ) < piDenAbove := by exact_mod_cast hDA
  have hcop : Nat.Coprime piNum piDen := by decide +kernel
  have hne : p * piDen ≠ piNum * q := by
    intro h
    have h1 : piDen ∣ q := (Nat.Coprime.dvd_of_dvd_mul_left hcop.symm) ⟨p, by rw [← h, Nat.mul_comm]⟩
    exact absurd (Nat.le_of_dvd hq h1) (by omega)
  have hb := pi_between
  have down : p * piDen < piNum * q → (p : ℝ) / q < Real.pi := by
    intro h
    refine lt_trans ?_ hb.1
    rw [div_lt_div_iff₀ hqR hDR]
    exact_mod_cast h
  have up : piNum * q < p * piDen → Real.pi < (p : ℝ) / q := by
    intro h
    -- a fraction above the lower convergent is above the upper one or has a large denominator
    have habove : piNumAbove * q ≤ p * piDenAbove := by
      by_contra hc
      have h1 : piNum * q + 1 ≤ p * piDen := h
      have h2 : p * piDenAbove + 1 ≤ piNumAbove * q := by omega
      have h3 : (piNum * q + 1) * piDenAbove ≤ p * piDen * piDenAbove := Nat.mul_le_mul_right _ h1
      have h4 : (p * piDenAbove + 1) * piDen ≤ piNumAbove * q * piDen := Nat.mul_le_mul_right _ h2
      have h5 : piNumAbove * q * piDen = (piNum * piDenAbove + 1) * q := by rw [← pi_neighbours]; ring
      have h6 : (piNum * q + 1) * piDenAbove = piNum * piDenAbove * q + piDenAbove := by ring
      have h7 : (p * piDenAbove + 1) * piDen = p * piDen * piDenAbove + piDen := by ring
      have h8 : (piNum * piDenAbove + 1) * q = piNum * piDenAbove * q + q := by ring
      omega
    refine lt_of_lt_of_le hb.2 ?_
    rw [div_le_div_iff₀ hDAR hqR]
    exact_mod_cast habove
  refine ⟨⟨fun h => ?_, down⟩, ⟨fun h => ?_, up⟩⟩
  · by_contra hc
    exact absurd (up (by omega)) (not_lt.2 h.le)
  · by_contra hc
    exact absurd (down (by omega)) (not_lt.2 h.le)

end Sys2Proof.Machine
end

