-- ==== Sys2Proof/Laws/Step.lean ====
section
/-! SUPPORT. What one step can do, said once (R40, R41, R185, R212, R220, R223). -/

namespace Sys2Proof.Machine

theorem step_nil (s : State) (h : s.inputs = []) : step s = .next s := by
  simp only [step, fetch, h]

theorem step_command_ok (s : State) (c : Command) (ans : HostAnswers) (rest : List HostInput) (i : Instr)
    (h : s.inputs = .command c ans :: rest) (hd : decode c = .ok i) : step s = exec i (latch ans rest s) := by
  simp only [step, fetch, h, takeCommand, hd]

theorem step_command_illegal (s : State) (c : Command) (ans : HostAnswers) (rest : List HostInput) (e : Illegal)
    (h : s.inputs = .command c ans :: rest) (hd : decode c = .error e) :
    step s = .next (raiseIllegal (latch ans rest s)) := by
  simp only [step, fetch, h, takeCommand, hd]

theorem step_engineReset (s : State) (rest : List HostInput) (h : s.inputs = .engineReset :: rest) :
    step s = .next (engineReset { s with inputs := rest }) := by
  simp only [step, fetch, h]

/-- Every step that answers a next state is idle, a reset, an illegal command or a decoded instruction. -/
theorem step_cases (s t : State) (h : step s = .next t) :
    (s.inputs = [] ∧ t = s) ∨
    (∃ rest, s.inputs = .engineReset :: rest ∧ t = engineReset { s with inputs := rest }) ∨
    ∃ c ans rest, s.inputs = .command c ans :: rest ∧
      ((∃ e, decode c = .error e ∧ t = raiseIllegal (latch ans rest s)) ∨
       ∃ i, decode c = .ok i ∧ exec i (latch ans rest s) = .next t) := by
  match hi : s.inputs with
  | [] =>
    rw [step_nil s hi] at h
    injection h with h
    exact .inl ⟨rfl, h.symm⟩
  | .engineReset :: rest =>
    rw [step_engineReset s rest hi] at h
    injection h with h
    exact .inr (.inl ⟨rest, rfl, h.symm⟩)
  | .command c ans :: rest =>
    refine .inr (.inr ⟨c, ans, rest, rfl, ?_⟩)
    cases hd : decode c with
    | error e =>
      rw [step_command_illegal s c ans rest e hi hd] at h
      injection h with h
      exact .inl ⟨e, rfl, h.symm⟩
    | ok i =>
      rw [step_command_ok s c ans rest i hi hd] at h
      exact .inr ⟨i, rfl, h⟩
  | .overlap _ _ :: _ => simp only [step, fetch, hi, reduceCtorEq] at h
  | .changeHeldBlock _ :: _ => simp only [step, fetch, hi, reduceCtorEq] at h
  | .resetDuring _ :: _ => simp only [step, fetch, hi, reduceCtorEq] at h

end Sys2Proof.Machine
end

