-- ==== Sys2Proof/Tests/Slice0.lean ====
section
/-! SUPPORT. The model's own tests, with expected values of spec/95_test_vectors.md and of the rules, and for every
statement with hypotheses a named theorem that shows states and operands that meet them. -/

namespace Sys2Proof.Machine.Tests

/-- A state with the given registers, all else as after reset. -/
def regs (coef prevIn prevOut : Word) : State :=
  { State.reset with coef := coef, prevIn := prevIn, prevOut := prevOut }

/-- A state whose host has the given entry next. -/
def issued (x : HostInput) : State := { State.reset with inputs := [x] }

/-- A state with the given host answers. -/
def answered (acquire : Option InBlock) (allocate : Option OutHandle) : State :=
  { State.reset with answers := ⟨acquire, allocate⟩ }

/-- The input block of the given samples. -/
def blockOf (xs : List Sample) : InBlock := ⟨7, xs⟩

/-- A block of BLOCK_LEN zero samples. -/
def fullBlock : InBlock := blockOf (List.replicate Config.blockLen 0#16)

/-- A handle of exactly BLOCK_LEN slots. -/
def fullHandle : OutHandle := ⟨9, Config.blockLen⟩

/-- No answers of the host. -/
def noAnswers : HostAnswers := ⟨none, none⟩

/-! ### Decoding: words written out bit by bit from R61 and R64 -/

theorem test_decode_nop : decode ⟨0b00000000000000000000000000000000#32, 0x12345678#32, 0x9ABCDEF0#32⟩ = .ok .nop := by
  decide

theorem test_decode_config : decode ⟨0b00000000000000000000000000000001#32, 0x42700000#32, 0x472C4400#32⟩ =
    .ok (.config 0x42700000#32 0x472C4400#32) := by decide

theorem test_decode_reset : decode ⟨0b00000000000000000000000000000010#32, 5#32, 6#32⟩ = .ok .reset := by decide

theorem test_decode_procf : decode ⟨0b00000000000000000000000000000011#32, 0x7F800001#32, 6#32⟩ =
    .ok (.procf 0x7F800001#32) := by decide

/-- V-PS: A[31:16] is ignored. -/
theorem test_decode_procs : decode ⟨0b00000000000000000000000000000100#32, 0x12340005#32, 0#32⟩ = .ok (.procs 5#16) := by
  decide

theorem test_decode_quant : decode ⟨0b00000000000000000000000000000101#32, 0xC7000080#32, 0#32⟩ =
    .ok (.quant 0xC7000080#32) := by decide

theorem test_decode_procb : decode ⟨0b00000000000000000000000000000110#32, 1#32, 1#32⟩ = .ok .procb := by decide

theorem test_decode_rdcoef : decode ⟨0b00000000000000000000000000000111#32, 0#32, 0#32⟩ = .ok .rdcoef := by decide

theorem test_decode_rdpin : decode ⟨0b00000000000000000000000000001000#32, 0#32, 0#32⟩ = .ok .rdpin := by decide

theorem test_decode_rdpout : decode ⟨0b00000000000000000000000000001001#32, 0#32, 0#32⟩ = .ok .rdpout := by decide

/-- V-CTL, R67: reserved opcodes and reserved bits. -/
theorem test_decode_illegal :
    decode ⟨0x0000000A#32, 0#32, 0#32⟩ = .error (.reservedOpcode 0xA#4) ∧
    decode ⟨0x0000000F#32, 0#32, 0#32⟩ = .error (.reservedOpcode 0xF#4) ∧
    decode ⟨0x80000001#32, 0x3F800000#32, 0x472C4400#32⟩ = .error .reservedBits ∧
    decode ⟨0x00000012#32, 0#32, 0#32⟩ = .error .reservedBits := by decide

/-- R70: the words the assembler writes, PROCS -1000 with its sign extension. -/
theorem test_encode :
    encode (.procs 0xFC18#16) = ⟨0x00000004#32, 0xFFFFFC18#32, 0x00000000#32⟩ ∧
    encode (.config 0x3F800000#32 0x472C4400#32) = ⟨0x00000001#32, 0x3F800000#32, 0x472C4400#32⟩ ∧
    encode .rdpout = ⟨0x00000009#32, 0#32, 0#32⟩ := by decide

/-- The opcode table's numbering: the first word is the low 32 bits. -/
theorem test_table_word :
    decodeTableWord 96 0x472C4400_42700000_00000001 = some (.config 0x42700000#32 0x472C4400#32) ∧
    decodeTableWord 32 0x00000016 = none := by decide

/-! ### Well-formedness: ill-formed commands are refused -/

theorem test_illegal_opcode_not_legal : Command.legal ⟨0x0000000A#32, 0#32, 0#32⟩ = false := by decide

theorem test_reserved_bit_not_legal :
    Command.legal ⟨0x00000010#32, 0#32, 0#32⟩ = false ∧ Command.legal ⟨0x80000000#32, 0#32, 0#32⟩ = false := by decide

theorem test_last_opcode_legal : Command.legal ⟨0x00000009#32, 0xFFFFFFFF#32, 0xFFFFFFFF#32⟩ = true := by decide

/-- A block one sample too long and a handle one slot too short break the host's duty. -/
theorem test_duty_checks_refuse (x : Sample) :
    (blockOf (x :: fullBlock.samples)).dutyMet = false ∧ (⟨9, Config.blockLenPred⟩ : OutHandle).dutyMet = false := by
  simp [InBlock.dutyMet, OutHandle.dutyMet, fullBlock, blockOf, Config.blockLen]

theorem test_duty_checks_accept : fullBlock.dutyMet = true ∧ fullHandle.dutyMet = true := by
  simp [InBlock.dutyMet, OutHandle.dutyMet, fullBlock, fullHandle, blockOf]

/-! ### One step of each instruction -/

/-- V-CTL: NOP. -/
theorem test_nop : observation (exec .nop (regs 0x3F7DD483#32 0x447A0000#32 0x4477E188#32)) =
    some (0x3F7DD483#32, 0x447A0000#32, 0x4477E188#32, [⟨.ok, 0#32⟩]) := by decide

/-- V-ROM: CONFIG 1000.0, 44100.0 keeps the history. -/
theorem test_config : observation (exec (.config 0x447A0000#32 0x472C4400#32) (regs 0#32 0x447A0000#32 0x4477E188#32)) =
    some (0x3F601323#32, 0x447A0000#32, 0x4477E188#32, [⟨.ok, 0#32⟩]) := by decide

/-- V-ROM: the smallest value, the rate floor, the rounding to 1.0 and the three kinds of non-finite operand. -/
theorem test_rom :
    coefRom 0x7F7FFFFF#32 0x447A0000#32 = 0x031F27AB#32 ∧ coefRom 0x42700000#32 0x447A0000#32 = 0x3F39E9A0#32 ∧
    coefRom 0x3F800000#32 0x7F7FFFFF#32 = 0x3F800000#32 ∧ coefRom 0x7F800000#32 0x472C4400#32 = 0#32 ∧
    coefRom 0x42700000#32 0xFF800000#32 = 0x3F7DD483#32 ∧ coefRom 0x7F800000#32 0x7F800000#32 = 0x7FC00000#32 := by decide

/-- V-REC: RESET clears the history only. -/
theorem test_reset : observation (exec .reset (regs 0x3F7DD483#32 0x40A00000#32 0x7FC00000#32)) =
    some (0x3F7DD483#32, 0#32, 0#32, [⟨.ok, 0#32⟩]) := by decide

/-- V-REC: COEF = +0.0, a negative t2 gives -0.0. -/
theorem test_procf : observation (exec (.procf 0xC0E00000#32) (regs 0#32 0x40A00000#32 0#32)) =
    some (0#32, 0xC0E00000#32, 0x80000000#32, [⟨.ok, 0x80000000#32⟩]) := by decide

/-- V-REC: infinity minus infinity. -/
theorem test_procf_nan : observation (exec (.procf 0#32) (regs 0x3F7DD483#32 0x7F800000#32 0x7F800000#32)) =
    some (0x3F7DD483#32, 0#32, 0x7FC00000#32, [⟨.ok, 0x7FC00000#32⟩]) := by decide

/-- V-ALT, second row. -/
theorem test_procs : observation (exec (.procs 0xFC18#16) (regs 0x3F7DD483#32 0x447A0000#32 0x4477E188#32)) =
    some (0x3F7DD483#32, 0xC47A0000#32, 0xC479FB67#32, [⟨.ok, 0xFFFFFC19#32⟩]) := by decide

/-- P3, third step: a tie to even, and saturation. -/
theorem test_procs_saturates : observation (exec (.procs 0x8000#16) (regs 0x3F800000#32 0x46FFFE00#32 0x46FDD287#32)) =
    some (0x3F800000#32, 0xC7000000#32, 0xC70115BC#32, [⟨.ok, 0xFFFF8000#32⟩]) := by decide

/-- V-Q: truncation toward zero and the two clamps. -/
theorem test_quantize :
    sampleResult (quantizeNumber 0xBFC00000#32) = 0xFFFFFFFF#32 ∧ sampleResult (quantizeNumber 0xBF7FFFFF#32) = 0#32 ∧
    sampleResult (quantizeNumber 0x46FFFF00#32) = 0x7FFF#32 ∧ sampleResult (quantizeNumber 0xC7000080#32) = 0xFFFF8000#32 ∧
    sampleResult (quantizeNumber 0xFF800000#32) = 0xFFFF8000#32 := by decide

/-- V-Q: QUANT leaves the registers. -/
theorem test_quant : observation (exec (.quant 0x477FFF00#32) (regs 1#32 2#32 3#32)) =
    some (1#32, 2#32, 3#32, [⟨.ok, 0x00007FFF#32⟩]) := by decide

/-- V-BLK, last row: the block loop over four samples. -/
theorem test_block : blockOutput (blockOf []) ⟨9, 4⟩ 0 [1#16, 0xFFFF#16, 2#16, 5#16] State.reset =
    [0#16, 0#16, 1#16, 4#16] := by decide

/-- P2, first step. -/
theorem test_procb_no_input : observation (exec .procb State.reset) =
    some (0x3F7DD483#32, 0#32, 0#32, [⟨.ok, 1#32⟩]) := by decide

/-- V-CTL: the read-backs. -/
theorem test_rdcoef : observation (exec .rdcoef (regs 1#32 2#32 3#32)) = some (1#32, 2#32, 3#32, [⟨.ok, 1#32⟩]) := by decide

theorem test_rdpin : observation (exec .rdpin (regs 1#32 2#32 3#32)) = some (1#32, 2#32, 3#32, [⟨.ok, 2#32⟩]) := by decide

theorem test_rdpout : observation (exec .rdpout (regs 1#32 2#32 3#32)) = some (1#32, 2#32, 3#32, [⟨.ok, 3#32⟩]) := by decide

/-! ### The step and the port -/

/-- V-CTL: an illegal word. -/
theorem test_step_illegal : observation (step (issued (.command ⟨0x00000012#32, 0#32, 0#32⟩ noAnswers))) =
    some (0x3F7DD483#32, 0#32, 0#32, [⟨.illegal, 0#32⟩]) := by decide

/-- V-RST: the engine reset from a state of NaN and infinity. -/
theorem test_step_engineReset :
    fetch { regs 0x7FC00000#32 0x7F800000#32 0x7FC00000#32 with inputs := [.engineReset] } = .complete State.reset := by decide

/-- A word placed for the next step is the one that runs: PROCS 1000, from the reset. -/
theorem test_withFetchWord : observation (step (State.reset.withFetchWord 64 0x000003E8_00000004)) =
    some (0x3F7DD483#32, 0x447A0000#32, 0x4477E188#32, [⟨.ok, 0x000003DF#32⟩]) := by decide

/-- R63: the status bit. -/
theorem test_status_bit : statusBit .ok = 0#1 ∧ statusBit .illegal = 1#1 := by decide

/-! ### The assembler (R70, R71) -/

theorem test_assemble_config : assemble
    ['C', 'O', 'N', 'F', 'I', 'G', ' ', '6', '0', '.', '0', ',', ' ', '#', '0', 'x', '4', '7', '2', 'C', '4', '4', '0', '0', ' ', ';', 'x'] =
    .ok [⟨0x00000001#32, 0x42700000#32, 0x472C4400#32⟩] := by decide

theorem test_assemble_procs : assemble ['P', 'R', 'O', 'C', 'S', ' ', '-', '1', '0', '0', '0'] =
    .ok [⟨0x00000004#32, 0xFFFFFC18#32, 0#32⟩] := by decide

theorem test_assemble_exponent : assemble ['P', 'R', 'O', 'C', 'F', ' ', '-', '1', '.', '5', 'e', '3'] =
    .ok [⟨0x00000003#32, 0xC4BB8000#32, 0#32⟩] := by decide

theorem test_assemble_out_of_range : assemble ['P', 'R', 'O', 'C', 'S', ' ', '3', '2', '7', '6', '8'] = .error .outOfRange := by
  decide

theorem test_assemble_init : assemble ['I', 'N', 'I', 'T'] =
    .ok [⟨1#32, 0x42700000#32, 0x472C4400#32⟩, ⟨2#32, 0#32, 0#32⟩] := by decide

theorem test_assemble_procs_each : assemble ['P', 'R', 'O', 'C', 'S', '*', ' ', '1', ',', ' ', '-', '1'] =
    .ok [⟨4#32, 1#32, 0#32⟩, ⟨4#32, 0xFFFFFFFF#32, 0#32⟩] := by decide

/-! ### Witnesses: the hypotheses of each statement can be met, each clause at a boundary -/

theorem witness_DecodeIsTheOpcodeMap :
    (0x00000010#32).extractLsb' 4 28 ≠ 0#28 ∧ (0x0000000F#32).extractLsb' 4 28 = 0#28 ∧
    (0x00000009#32).extractLsb' 4 28 = 0#28 := by decide

theorem witness_DecodeEncodeAgree : decode ⟨0x00000004#32, 0x123480E8#32, 5#32⟩ = .ok (.procs 0x80E8#16) := by decide

theorem witness_PseudoInstructionsExpand :
    parseF32 ['6', '0'] = .ok (.decimal false 60 0 0) ∧ parseF32 ['n', 'a', 'n'] = .ok .nan ∧
    [['1']] ≠ ([] : List (List Char)) ∧ parseI16s [['1']] = .ok [.decimal 1] ∧
    [I16Literal.decimal 1].map I16Literal.toSample = [1#16].map .ok ∧
    ['H', 'A', 'L', 'T'] ∉ [['N', 'O', 'P'], ['C', 'O', 'N', 'F', 'I', 'G'], ['R', 'E', 'S', 'E', 'T'],
      ['P', 'R', 'O', 'C', 'F'], ['P', 'R', 'O', 'C', 'S'], ['Q', 'U', 'A', 'N', 'T'], ['P', 'R', 'O', 'C', 'B'],
      ['R', 'D', 'C', 'O', 'E', 'F'], ['R', 'D', 'P', 'I', 'N'], ['R', 'D', 'P', 'O', 'U', 'T'], ['I', 'N', 'I', 'T'],
      ['R', 'E', 'C', 'O', 'N', 'F'], ['P', 'R', 'O', 'C', 'S', '*']] := by decide

theorem witness_AssembledSampleIsItsLiteral :
    ((-32768 : Int) ≤ -32768 ∧ (-32768 : Int) ≤ 32767) ∧ ((-32768 : Int) ≤ 32767 ∧ (32767 : Int) ≤ 32767) ∧
    ((-32769 : Int) < -32768) ∧ ((32767 : Int) < 32768) := by decide

theorem witness_StepRunsTheDecodedCommand :
    (issued (.command ⟨9#32, 0#32, 0#32⟩ noAnswers)).inputs = [.command ⟨9#32, 0#32, 0#32⟩ noAnswers] ∧
    decode ⟨9#32, 0#32, 0#32⟩ = .ok .rdpout := by decide

theorem witness_IdleStepHoldsTheState : (regs 1#32 2#32 3#32).inputs = [] := rfl

theorem witness_IllegalCommandOnlyResponds :
    (issued (.command ⟨0x10#32, 0#32, 0#32⟩ noAnswers)).inputs = [.command ⟨0x10#32, 0#32, 0#32⟩ noAnswers] ∧
    (0x10#32).extractLsb' 4 28 ≠ 0#28 ∧ 10 ≤ ((0xA#32).extractLsb' 0 4).toNat := by decide

theorem witness_EngineResetConstructs : (issued .engineReset).inputs = [.engineReset] := rfl

theorem witness_ResetDuringCommandRefused :
    (issued (.resetDuring ⟨6#32, 0#32, 0#32⟩)).inputs = [.resetDuring ⟨6#32, 0#32, 0#32⟩] := rfl

theorem witness_BrokenDutyRefused (x : Sample) :
    (issued (.overlap ⟨0#32, 0#32, 0#32⟩ ⟨2#32, 0#32, 0#32⟩)).inputs =
      [.overlap ⟨0#32, 0#32, 0#32⟩ ⟨2#32, 0#32, 0#32⟩] ∧
    (issued (.changeHeldBlock ⟨6#32, 0#32, 0#32⟩)).inputs = [.changeHeldBlock ⟨6#32, 0#32, 0#32⟩] ∧
    ((answered (some (blockOf (x :: fullBlock.samples))) none).answers.acquire = some (blockOf (x :: fullBlock.samples)) ∧
      (blockOf (x :: fullBlock.samples)).samples.length ≠ Config.blockLen) ∧
    ((answered (some fullBlock) (some ⟨9, Config.blockLenPred⟩)).answers.acquire = some fullBlock ∧
      fullBlock.samples.length = Config.blockLen ∧
      (answered (some fullBlock) (some ⟨9, Config.blockLenPred⟩)).answers.allocate = some ⟨9, Config.blockLenPred⟩ ∧
      (⟨9, Config.blockLenPred⟩ : OutHandle).slots < Config.blockLen) := by
  simp [issued, answered, fullBlock, blockOf, Config.blockLen]

theorem dutiesMet_full : DutiesMet (answered (some fullBlock) (some fullHandle)) := by
  simp [DutiesMet, answered, fullBlock, fullHandle, blockOf]

theorem dutiesMet_reset : DutiesMet State.reset := by simp [DutiesMet, State.reset]

theorem witness_EveryCommandCompletesWithOneResponse :
    (Instr.procb = .procb → DutiesMet (answered (some fullBlock) (some fullHandle))) ∧
    (Instr.nop = .procb → DutiesMet State.reset) ∧
    (issued (.command ⟨6#32, 0#32, 0#32⟩ ⟨some fullBlock, some fullHandle⟩)).inputs =
      [.command ⟨6#32, 0#32, 0#32⟩ ⟨some fullBlock, some fullHandle⟩] ∧
    DutiesMet { issued (.command ⟨6#32, 0#32, 0#32⟩ ⟨some fullBlock, some fullHandle⟩) with
      answers := ⟨some fullBlock, some fullHandle⟩ } :=
  ⟨fun _ => dutiesMet_full, fun _ => dutiesMet_reset, rfl, dutiesMet_full⟩

theorem witness_NopCompletes : (0x80000000#32).extractLsb' 4 28 ≠ 0#28 := by decide

theorem witness_ReadBacksComplete :
    (isNaN 0x7F800001#32 = true ∨ isNaN 0#32 = true) ∧ (isNaN 0#32 = true ∨ isNaN 0xFFFFFFFF#32 = true) ∧
    isFinite 0xFF7FFFFF#32 = true := by decide

theorem witness_ResetCommandCompletes :
    (regs 1#32 0x447A0000#32 0x4477E188#32).prevIn = 0x447A0000#32 ∧
    (regs 1#32 0x447A0000#32 0x4477E188#32).prevOut = 0x4477E188#32 := by decide

theorem witness_ProcfCompletes :
    0x447A0000#32 = add32 State.reset.prevOut 0x447A0000#32 ∧ 0x447A0000#32 = sub32 0x447A0000#32 State.reset.prevIn ∧
    0x4477E188#32 = mul32 State.reset.coef 0x447A0000#32 := by decide

theorem witness_ProcsCompletes :
    0xC6FDD483#32 = mul32 State.reset.coef
      (sub32 (add32 State.reset.prevOut (i16ToF32 0x8000#16)) State.reset.prevIn) ∧
    isNaN (regs 0x7FC00000#32 0#32 0#32).coef = true ∧ isNaN (regs 0#32 0x7F800001#32 0#32).prevIn = true ∧
    isNaN (regs 0#32 0#32 0xFFFFFFFF#32).prevOut = true := by decide

theorem witness_QuantCompletes : isNaN 0x7F800000#32 = false ∧ isNaN 0x7F800001#32 = true := by decide

theorem witness_ProcbSkipsWithoutInput : (answered none (some fullHandle)).answers.acquire = none := rfl

theorem witness_ProcbSkipsWithoutOutput :
    (answered (some fullBlock) none).answers.acquire = some fullBlock ∧ fullBlock.samples.length = Config.blockLen ∧
    (answered (some fullBlock) none).answers.allocate = none := by
  simp [answered, fullBlock, blockOf]

theorem witness_ProcbIsOneProcsPerSample :
    (answered (some fullBlock) (some fullHandle)).answers.acquire = some fullBlock ∧
    (answered (some fullBlock) (some fullHandle)).answers.allocate = some fullHandle ∧
    fullBlock.samples.length = Config.blockLen ∧ Config.blockLen ≤ fullHandle.slots := by
  simp [answered, fullBlock, fullHandle, blockOf]

/-- PROCB completes from each state whose host keeps its duties: no input, no output, and both. -/
theorem procb_completes (s : State) (h : DutiesMet s) : ∃ t, exec .procb s = .next t := by
  rcases execProcb_cases s with ⟨_, e⟩ | ⟨blk, ha, ⟨h1, _⟩ | ⟨_, _, e⟩ | ⟨o, _, hb, ⟨h1, _⟩ | ⟨_, e⟩⟩⟩
  · exact ⟨_, e⟩
  · simp [InBlock.dutyMet, h.1 blk ha] at h1
  · exact ⟨_, e⟩
  · simp [OutHandle.dutyMet, h.2 o hb] at h1
  · exact ⟨_, e⟩

theorem witness_ProcbHistoryIsOneOfThree :
    (DutiesMet State.reset ∧ ∃ t, exec .procb State.reset = .next t) ∧
    (DutiesMet (answered (some fullBlock) none) ∧ ∃ t, exec .procb (answered (some fullBlock) none) = .next t) ∧
    (DutiesMet (answered (some fullBlock) (some fullHandle)) ∧
      ∃ t, exec .procb (answered (some fullBlock) (some fullHandle)) = .next t) := by
  have h1 : DutiesMet (answered (some fullBlock) none) := by simp [DutiesMet, answered, fullBlock, blockOf]
  exact ⟨⟨dutiesMet_reset, procb_completes _ dutiesMet_reset⟩, ⟨h1, procb_completes _ h1⟩,
    ⟨dutiesMet_full, procb_completes _ dutiesMet_full⟩⟩

theorem witness_CommandsWriteOnlyTheirColumns :
    (∃ t, exec (.procf 0#32) State.reset = .next t) ∧ (∃ t, exec (.config 0#32 0#32) State.reset = .next t) ∧
    (∃ t, exec .procb (answered none none) = .next t) :=
  ⟨⟨_, rfl⟩, ⟨_, rfl⟩, procb_completes _ (by simp [DutiesMet, answered])⟩

theorem witness_CommandsReadOnlyTheRegisters : ∃ s s' t : State, s ≠ s' ∧
    s.coef = s'.coef ∧ s.prevIn = s'.prevIn ∧ s.prevOut = s'.prevOut ∧ s.answers = s'.answers ∧ s.draws = s'.draws ∧
    exec .rdpin s = .next t :=
  ⟨State.reset, issued .engineReset, _, by decide, rfl, rfl, rfl, rfl, rfl, rfl⟩

theorem witness_CoefIsAlwaysWholeRomValue :
    (∃ t, step (issued .engineReset) = .next t) ∧
    ∃ t, step (issued (.command ⟨1#32, 0x3F800000#32, 0x472C4400#32⟩ noAnswers)) = .next t :=
  ⟨⟨_, rfl⟩, ⟨_, rfl⟩⟩

theorem witness_SumIsRoundedOnce :
    (isFinite 0x7F7FFFFF#32 = true ∧ isFinite 0x72FFFFFF#32 = true ∧
      |((real 0x7F7FFFFF#32 + real 0x72FFFFFF#32 : ℚ) : ℝ)| < overflowBound) ∧
    (isFinite 0x73000000#32 = true ∧ overflowBound ≤ ((real 0x7F7FFFFF#32 + real 0x73000000#32 : ℚ) : ℝ)) ∧
    (isFinite 0xFF7FFFFF#32 = true ∧ isFinite 0xF3000000#32 = true ∧
      ((real 0xFF7FFFFF#32 + real 0xF3000000#32 : ℚ) : ℝ) ≤ -overflowBound) ∧
    real 0x80000000#32 + real 0x80000000#32 = 0 ∧ real 0x3F800000#32 + real 0xBF800000#32 = 0 := by
  have h1 : real 0x7F7FFFFF#32 + real 0x72FFFFFF#32 = 2 ^ 128 - 2 ^ 104 + (2 ^ 103 - 2 ^ 79) := by decide +kernel
  have h2 : real 0x7F7FFFFF#32 + real 0x73000000#32 = 2 ^ 128 - 2 ^ 103 := by decide +kernel
  have h3 : real 0xFF7FFFFF#32 + real 0xF3000000#32 = -(2 ^ 128 - 2 ^ 103) := by decide +kernel
  refine ⟨⟨by decide, by decide, ?_⟩, ⟨by decide, ?_⟩, ⟨by decide, by decide, ?_⟩, by decide +kernel, by decide +kernel⟩
  · rw [h1, overflowBound]; norm_num
  · rw [h2, overflowBound]; norm_num
  · rw [h3, overflowBound]; norm_num

theorem witness_DifferenceIsRoundedOnce :
    (isFinite 0x7F7FFFFF#32 = true ∧ isFinite 0xF2FFFFFF#32 = true ∧
      |((real 0x7F7FFFFF#32 - real 0xF2FFFFFF#32 : ℚ) : ℝ)| < overflowBound) ∧
    (isFinite 0xF3000000#32 = true ∧ overflowBound ≤ ((real 0x7F7FFFFF#32 - real 0xF3000000#32 : ℚ) : ℝ)) ∧
    (isFinite 0xFF7FFFFF#32 = true ∧ isFinite 0x73000000#32 = true ∧
      ((real 0xFF7FFFFF#32 - real 0x73000000#32 : ℚ) : ℝ) ≤ -overflowBound) ∧
    real 0x80000000#32 - real 0x00000000#32 = 0 := by
  have h1 : real 0x7F7FFFFF#32 - real 0xF2FFFFFF#32 = 2 ^ 128 - 2 ^ 104 + (2 ^ 103 - 2 ^ 79) := by decide +kernel
  have h2 : real 0x7F7FFFFF#32 - real 0xF3000000#32 = 2 ^ 128 - 2 ^ 103 := by decide +kernel
  have h3 : real 0xFF7FFFFF#32 - real 0x73000000#32 = -(2 ^ 128 - 2 ^ 103) := by decide +kernel
  refine ⟨⟨by decide, by decide, ?_⟩, ⟨by decide, ?_⟩, ⟨by decide, by decide, ?_⟩, by decide +kernel⟩
  · rw [h1, overflowBound]; norm_num
  · rw [h2, overflowBound]; norm_num
  · rw [h3, overflowBound]; norm_num

/-- 18631 × (1801 × 2^103) is the overflow bound itself. -/
theorem witness_ProductIsRoundedOnce :
    (isFinite 0x7F7FFFFF#32 = true ∧ isFinite 0x3F800000#32 = true ∧
      |((real 0x7F7FFFFF#32 * real 0x3F800000#32 : ℚ) : ℝ)| < overflowBound) ∧
    (isFinite 0x46918E00#32 = true ∧ isFinite 0xF8612000#32 = true ∧
      overflowBound ≤ |((real 0x46918E00#32 * real 0xF8612000#32 : ℚ) : ℝ)|) := by
  have h1 : real 0x7F7FFFFF#32 * real 0x3F800000#32 = 2 ^ 128 - 2 ^ 104 := by decide +kernel
  have h2 : real 0x46918E00#32 * real 0xF8612000#32 = -(2 ^ 128 - 2 ^ 103) := by decide +kernel
  refine ⟨⟨by decide, by decide, ?_⟩, ⟨by decide, by decide, ?_⟩⟩
  · rw [h1, overflowBound]; norm_num
  · rw [h2, overflowBound]; norm_num

theorem witness_NonFiniteArithmetic :
    isNaN 0x7F800001#32 = true ∧ isInf 0x7F800000#32 = true ∧ isInf 0xFF800000#32 = true ∧
    isFinite 0x7F7FFFFF#32 = true ∧ (isFinite 0x80000000#32 = true ∧ real 0x80000000#32 = 0) ∧
    (isNaN 0x00000001#32 = false ∧ ¬(isFinite 0x00000001#32 = true ∧ real 0x00000001#32 = 0)) := by decide +kernel

theorem witness_LessThanIsTheOrderOfValues :
    isNaN 0xFF800001#32 = true ∧ isFinite 0x80000000#32 = true ∧ isFinite 0x00000000#32 = true ∧
    isNaN 0xFF800000#32 = false ∧ isNaN 0x7F800000#32 = false := by decide

theorem witness_QuantizerClampsThenTruncates :
    isNaN 0x7FC00000#32 = true ∧ isNaN 0x7F800000#32 = false ∧ isFinite 0x46FFFE00#32 = true ∧
    (32767 : ℚ) ≤ real 0x46FFFE00#32 ∧ isFinite 0xC7000000#32 = true ∧ real 0xC7000000#32 ≤ (-32768 : ℚ) ∧
    (-32768 : ℚ) < real 0xC6FFFFFF#32 ∧ real 0x46FFFDFF#32 < (32767 : ℚ) := by decide +kernel

theorem witness_RomClampsItsOperands :
    isFinite 0x3F7FFFFF#32 = true ∧ isFinite 0x3F800000#32 = true ∧ isNaN 0x7FC00000#32 = true := by decide

theorem witness_RomIgnoresImplausibleOperands :
    lt32 0x3F7FFFFF#32 0x3F800000#32 = true ∧ lt32 0x4479FFFF#32 0x447A0000#32 = true := by decide

theorem witness_RomNonFiniteOperands :
    isNaN (clampCutoff 0x7FC00000#32) = true ∧ isNaN (clampRate 0x7F800001#32) = true ∧
    clampCutoff 0x7F800000#32 = 0x7F800000#32 ∧ clampRate 0x7F800000#32 = 0x7F800000#32 ∧
    isFinite (clampCutoff 0xFF800000#32) = true ∧ isFinite (clampRate 0xFF800000#32) = true := by decide

theorem witness_RomValueIsCorrectlyRounded : ∃ f r : ℝ,
    isFinite (clampCutoff 0x7F7FFFFF#32) = true ∧ isFinite (clampRate 0x447A0000#32) = true ∧
    f = ((real (clampCutoff 0x7F7FFFFF#32) : ℚ) : ℝ) ∧ r = ((real (clampRate 0x447A0000#32) : ℚ) : ℝ) :=
  ⟨_, _, by decide, by decide, rfl, rfl⟩

theorem witness_RomRange : isFinite 0x7F7FFFFF#32 = true ∧ isFinite 0x447A0000#32 = true := by decide

theorem witness_RomIsOneAboveTheLastMidpoint : ∃ f r : ℝ,
    isFinite (clampCutoff 0x3F800000#32) = true ∧ isFinite (clampRate 0x7F7FFFFF#32) = true ∧
    f = ((real (clampCutoff 0x3F800000#32) : ℚ) : ℝ) ∧ r = ((real (clampRate 0x7F7FFFFF#32) : ℚ) : ℝ) :=
  ⟨_, _, by decide, by decide, rfl, rfl⟩

theorem witness_RomIsMonotone :
    isFinite (clampCutoff 0x42700000#32) = true ∧ isFinite (clampCutoff 0x447A0000#32) = true ∧
    isFinite (clampRate 0x447A0000#32) = true ∧ isFinite (clampRate 0x472C4400#32) = true ∧
    real (clampCutoff 0x42700000#32) ≤ real (clampCutoff 0x447A0000#32) ∧
    real (clampRate 0x447A0000#32) ≤ real (clampRate 0x472C4400#32) := by decide +kernel

theorem witness_RomHasNoTies : ∃ f r : ℝ,
    (isFinite (clampCutoff 0x42700000#32) = true ∧ isFinite (clampRate 0x472C4400#32) = true ∧
      f = ((real (clampCutoff 0x42700000#32) : ℚ) : ℝ) ∧ r = ((real (clampRate 0x472C4400#32) : ℚ) : ℝ)) ∧
    isFinite 0x3F7DD482#32 = true ∧ real 0x3F7DD482#32 ≠ real (coefRom 0x42700000#32 0x472C4400#32) :=
  ⟨_, _, ⟨by decide, by decide, rfl, rfl⟩, by decide, by decide +kernel⟩

theorem witness_NaNPropagatesAndSticks :
    isNaN (regs 0x7FC00000#32 0#32 0#32).coef = true ∧ isNaN (regs 0#32 0x7F800001#32 0#32).prevIn = true ∧
    isNaN (regs 0#32 0#32 0x7FC00000#32).prevOut = true ∧ isNaN 0xFF800001#32 = true ∧
    (Instr.procs 5#16 ≠ .reset ∧ ∃ t, exec (.procs 5#16) (regs 0#32 0#32 0x7FC00000#32) = .next t) :=
  ⟨by decide, by decide, by decide, by decide, by decide, _, rfl⟩

theorem witness_InfinityInTheRecurrence :
    (isFinite State.reset.prevIn = true ∧ isFinite State.reset.prevOut = true ∧ isFinite State.reset.coef = true ∧
      0 < real State.reset.coef) ∧
    (isFinite (regs 0#32 0#32 0#32).coef = true ∧ real (regs 0#32 0#32 0#32).coef = 0) ∧
    isInf (regs 0#32 0xFF800000#32 0xFF800000#32).prevIn = true ∧
    (regs 0#32 0xFF800000#32 0xFF800000#32).prevOut = (regs 0#32 0xFF800000#32 0xFF800000#32).prevIn := by
  decide +kernel

theorem witness_FirstSampleIsCoefTimesInput :
    State.reset.prevIn = 0#32 ∧ State.reset.prevOut = 0#32 ∧ 0x00000000#32 ≠ 0x80000000#32 ∧
    isFinite State.reset.coef = true ∧ signBit State.reset.coef = false := by decide

theorem witness_SilenceStaysSilent :
    isFinite (regs 0#32 0#32 0#32).coef = true ∧ signBit (regs 0#32 0#32 0#32).coef = false ∧
    (regs 0#32 0#32 0#32).prevIn = 0#32 ∧ (regs 0#32 0#32 0#32).prevOut = 0#32 := by decide

/-- V-REC: 5.0 in the history and -7.0 coming in; and 2^23 - 1 in both places. -/
theorem witness_PassThroughAtUnitCoefficient :
    (real 0x40A00000#32 = (5 : Int) ∧ |(5 : Int)| < 2 ^ 23 ∧ real 0xC0E00000#32 = (-7 : Int) ∧ |(-7 : Int)| < 2 ^ 23) ∧
    (real 0x4AFFFFFE#32 = (8388607 : Int) ∧ |(8388607 : Int)| < 2 ^ 23 ∧ isFinite 0x4AFFFFFE#32 = true ∧
      0x4AFFFFFE#32 ≠ 0x80000000#32) ∧
    (regs 0x3F800000#32 0x4AFFFFFE#32 0x4AFFFFFE#32).prevIn = (regs 0x3F800000#32 0x4AFFFFFE#32 0x4AFFFFFE#32).prevOut := by
  decide +kernel

theorem witness_ZeroCoefficientGivesZero :
    (regs 0#32 0x40A00000#32 0#32).coef = 0#32 ∧ isFinite (sub32 (add32 0#32 0xC0E00000#32) 0x40A00000#32) = true := by
  decide

/-- INV with every clause at its bound: COEF = 1.0, PREV_IN = -32768, PREV_OUT = 2^42. -/
theorem inv_at_bounds : Inv (regs 0x3F800000#32 0xC7000000#32 0x54800000#32) := by
  refine ⟨⟨by decide, by decide +kernel, by decide +kernel⟩, ⟨by decide, -32768, by decide +kernel, by decide, by decide⟩,
    ⟨by decide, by decide +kernel⟩⟩

theorem witness_IntegerPathKeepsInv :
    (Inv (regs 0x3F800000#32 0xC7000000#32 0x54800000#32) ∧ integerPath (.procs 0x7FFF#16) ∧
      ∃ t, exec (.procs 0x7FFF#16) (regs 0x3F800000#32 0xC7000000#32 0x54800000#32) = .next t) ∧
    integerPath (.config 0x7F800000#32 0x472C4400#32) ∧
    (InvCoef (regs 0x3F800000#32 0x7FC00000#32 0x7FC00000#32).coef ∧
      ∃ t, exec .reset (regs 0x3F800000#32 0x7FC00000#32 0x7FC00000#32) = .next t) :=
  ⟨⟨inv_at_bounds, trivial, _, rfl⟩, ⟨by decide, by decide, by decide⟩, ⟨inv_at_bounds.1, _, rfl⟩⟩

theorem witness_OutputsAreBoundedUnderInv : ∃ s, Inv s := ⟨_, inv_at_bounds⟩

/-- The state of `inv_at_bounds` with PROCS 5 issued. -/
def integerRunState : State :=
  { regs 0x3F800000#32 0xC7000000#32 0x54800000#32 with inputs := [.command ⟨4#32, 5#32, 0#32⟩ noAnswers] }

theorem witness_IntegerRunKeptByStep : IntegerRun integerRunState ∧ ∃ t, step integerRunState = .next t := by
  refine ⟨⟨inv_at_bounds, ?_⟩, _, rfl⟩
  intro x hx
  rw [integerRunState, List.mem_singleton] at hx
  subst hx
  intro i hi
  have h : decode ⟨4#32, 5#32, 0#32⟩ = .ok (.procs 5#16) := by decide
  rw [h] at hi
  injection hi with hi
  subst hi
  trivial

theorem witness_LegalKeptByStep :
    Legal (regs 0x7FC00000#32 0x7F800001#32 0x7FC00000#32) ∧ Legal (regs 0x3F800000#32 0#32 0x7F800000#32) ∧
    ∃ t, step (regs 0x3F800000#32 0#32 0x7F800000#32) = .next t :=
  ⟨⟨.inr (by decide), fun _ => by decide, by simp [regs, State.reset]⟩,
    ⟨.inl (by decide), fun h => absurd h (by decide), by simp [regs, State.reset]⟩, _, rfl⟩

end Sys2Proof.Machine.Tests
end

section
/-! The engine reset and the reset values (R35, R220, R221). -/

namespace Sys2Proof.Machine

/-- The coefficient of the source's construction, ROM(60.0, 44100.0) (R35). -/
theorem coefRom_default : coefRom fcDefault fsDefault = 0x3F7DD483#32 := by decide

/-- The engine reset leaves the coefficient of the state after reset (R35, R220). -/
theorem engineReset_coef_eq_reset (s : State) : (engineReset s).coef = State.reset.coef := by
  rw [engineReset_coef, coefRom_default, State.reset]

/-- Settles O10: the step is the engine reset, each field of which has its own law, and the coefficient is the ROM's value at
the construction's operands. The responses are emptied, and so no response is added. -/
theorem engineResetConstructs : Obligations.EngineResetConstructs := by
  intro s rest h
  refine ⟨engineReset { s with inputs := rest }, step_engineReset s rest h,
    engineReset_coef _, engineReset_coef_eq_reset _, engineReset_prevIn _, engineReset_prevOut _,
    engineReset_trace _, ?responses, engineReset_inputs _, engineReset_answers _⟩
  case responses =>
    rw [engineReset_responses]
    exact List.nil_prefix

/-- Settles O11: the state after reset holds the ROM's value at the construction's operands. -/
theorem resetValues : Obligations.ResetValues :=
  ⟨rfl, coefRom_default.symm, rfl, rfl⟩

end Sys2Proof.Machine
end

section
/-! The decoder, the legal commands and the illegal ones (R61, R62, R67, R69, R185). -/

namespace Sys2Proof

/-- An OP field is in the reserved range 0xA to 0xF (R67) or is one of the ten opcodes of R64. -/
theorem opcode_cases (op : BitVec 4) :
    10 ≤ op.toNat ∨ op = 0#4 ∨ op = 1#4 ∨ op = 2#4 ∨ op = 3#4 ∨ op = 4#4 ∨ op = 5#4 ∨ op = 6#4 ∨ op = 7#4 ∨
      op = 8#4 ∨ op = 9#4 := by
  revert op
  decide

theorem decode_reservedBits {c : Command} (hrsv : rsvField c.cmd ≠ 0#28) : decode c = .error .reservedBits :=
  if_pos hrsv

theorem decode_reservedOpcode {c : Command} (hrsv : rsvField c.cmd = 0#28) (hop : 10 ≤ (opField c.cmd).toNat) :
    decode c = .error (.reservedOpcode (opField c.cmd)) := by
  obtain ⟨k, hk⟩ := Nat.exists_eq_add_of_le' hop
  simp only [decode, hrsv, hk, ne_eq, not_true_eq_false, if_false]

/-- Settles O2: a reserved opcode is none of the ten, and at each of the ten the decoder's branch is the map's row. -/
theorem decodeIsTheOpcodeMap : Obligations.DecodeIsTheOpcodeMap := by
  intro cmd a b
  refine ⟨fun hrsv => decode_reservedBits (c := ⟨cmd, a, b⟩) hrsv, fun hrsv => ?_⟩
  rcases opcode_cases (cmd.extractLsb' 0 4) with hop | h | h | h | h | h | h | h | h | h | h
  case inl =>
    have hne (op : BitVec 4) (hlt : op.toNat < 10) : cmd.extractLsb' 0 4 ≠ op := by
      rintro rfl
      exact absurd hop (Nat.not_le.2 hlt)
    rw [decode_reservedOpcode (c := ⟨cmd, a, b⟩) hrsv hop, opField]
    simp [hne]
  all_goals simp [decode, rsvField, opField, sampleField, hrsv, h]

theorem legal_iff_fields (c : Command) :
    c.legal = true ↔ rsvField c.cmd = 0#28 ∧ (opField c.cmd).toNat ≤ 9 := by
  rw [Command.legal, Bool.and_eq_true, beq_iff_eq, decide_eq_true_iff, rsvField, opField]

/-- RSV and OP together are the whole of CMD (R61), so the legal command words are the numbers from 0 to 9. -/
theorem legal_iff_cmd_le (c : Command) : c.legal = true ↔ c.cmd.toNat ≤ 9 := by
  rw [legal_iff_fields, ← BitVec.toNat_inj, rsvField, opField, BitVec.extractLsb'_toNat, BitVec.extractLsb'_toNat,
    BitVec.toNat_ofNat, Nat.shiftRight_eq_div_pow, Nat.shiftRight_zero]
  omega

/-- In mask/match form: with every bit of CMD in the mask, the match is one of the numbers from 0 to 9. -/
theorem legal_iff_mask (c : Command) :
    c.legal = true ↔ ∃ op : Nat, op ≤ 9 ∧ c.cmd &&& 0xFFFFFFFF#32 = BitVec.ofNat 32 op := by
  have hmask : c.cmd &&& 0xFFFFFFFF#32 = c.cmd := BitVec.and_allOnes
  rw [legal_iff_cmd_le, hmask]
  constructor
  · exact fun h => ⟨c.cmd.toNat, h, by simp⟩
  · rintro ⟨op, hop, hcmd⟩
    rw [hcmd, BitVec.toNat_ofNat]
    exact (Nat.mod_le op _).trans hop

/-- The opcode map has a row for every legal command (R61, R64). -/
theorem decode_of_legal {c : Command} (hlegal : c.legal = true) : ∃ i, decode c = .ok i := by
  obtain ⟨hrsv, hop⟩ := (legal_iff_fields c).1 hlegal
  rw [(decodeIsTheOpcodeMap c.cmd c.a c.b).2 hrsv]
  rcases opcode_cases (c.cmd.extractLsb' 0 4) with hres | h | h | h | h | h | h | h | h | h | h
  case inl => exact absurd hop (Nat.not_le.2 hres)
  all_goals simp [h]

/-- A set reserved bit or a reserved opcode makes a command illegal (R67). -/
theorem decode_of_illegal {c : Command} (h : rsvField c.cmd ≠ 0#28 ∨ 10 ≤ (opField c.cmd).toNat) :
    ∃ e, decode c = .error e := by
  by_cases hrsv : rsvField c.cmd = 0#28
  · exact ⟨_, decode_reservedOpcode hrsv (h.resolve_left (not_not_intro hrsv))⟩
  · exact ⟨_, decode_reservedBits hrsv⟩

theorem legal_iff_decode (c : Command) : c.legal = true ↔ ∃ i, decode c = .ok i := by
  refine ⟨decode_of_legal, fun ⟨i, hi⟩ => (legal_iff_fields c).2 ?_⟩
  by_contra hillegal
  rw [not_and_or, Nat.not_le] at hillegal
  obtain ⟨e, he⟩ := decode_of_illegal hillegal
  cases hi.symm.trans he

/-- Settles O3, from the field form, the mask form and the decoder's answer, one lemma each. -/
theorem legalCommandsAreTheDecodedOnes : Obligations.LegalCommandsAreTheDecodedOnes :=
  fun c => ⟨legal_iff_fields c, legal_iff_mask c, legal_iff_decode c⟩

end Sys2Proof

namespace Sys2Proof.Machine

/-- Settles O9: such a command does not decode, and the step of one that does not is `raiseIllegal`, which only appends its
response. -/
theorem illegalCommandOnlyResponds : Obligations.IllegalCommandOnlyResponds := by
  refine ⟨fun s c ans rest hin hc => ?_, by simp⟩
  obtain ⟨e, he⟩ := decode_of_illegal hc
  rw [step_command_illegal s c ans rest e hin he, raiseIllegal_eq_respond, respond, latch]

end Sys2Proof.Machine
end

section
/-! The pseudo-instructions of the assembler (R70, R71). -/

namespace Sys2Proof.Machine

theorem parseOperands_init : parseOperands ['I', 'N', 'I', 'T'] [] = .ok .init := by
  simp [parseOperands, parseNone]

theorem parseOperands_reconf (ops : List (List Char)) :
    parseOperands ['R', 'E', 'C', 'O', 'N', 'F'] ops = parseTwo .reconf ops := by
  simp [parseOperands]

theorem parseTwo_ok (make : F32Literal → F32Literal → AsmLine) {x y : List Char} {u v : F32Literal}
    (hx : parseF32 x = .ok u) (hy : parseF32 y = .ok v) : parseTwo make [x, y] = .ok (make u v) := by
  simp only [parseTwo, hx, hy]

theorem parseOperands_procsEach {ops : List (List Char)} (h : ops ≠ []) :
    parseOperands ['P', 'R', 'O', 'C', 'S', '*'] ops = (parseI16s ops).map .procsEach := by
  simp [parseOperands, h]

/-- PROCS* of operands in range is one PROCS per sample, in order (R71). -/
theorem expandProcs_ok : ∀ {ls : List I16Literal} {xs : List Sample},
    ls.map I16Literal.toSample = xs.map .ok → expandProcs ls = .ok (xs.map .procs)
  | [], [], _ => rfl
  | l :: ls, x :: xs, h => by
    obtain ⟨hl, hls⟩ := List.cons.inj h
    simp only [expandProcs, hl, expandProcs_ok hls, List.map_cons]

/-- CONFIG then RESET, what INIT and RECONF expand to, takes COEF from the ROM and clears the history (R104, R126). -/
theorem execAll_config_reset (fc fs : Word) (s : State) :
    ∃ t, execAll [.config fc fs, .reset] s = .next t ∧
      t.coef = coefRom fc fs ∧ t.prevIn = plusZero ∧ t.prevOut = plusZero :=
  ⟨_, rfl, by simp, by simp, by simp⟩

/-- Settles O5, from the lemmas on each pseudo-instruction's mnemonic and expansion. A mnemonic that is none of the thirteen
fails every test of `parseOperands`; and after INIT the coefficient is the ROM's value at the construction's operands, as
after the engine reset. -/
theorem pseudoInstructionsExpand : Obligations.PseudoInstructionsExpand := by
  refine ⟨⟨parseOperands_init, rfl⟩, fun fc fs u v hu hv => ⟨?reconf, rfl⟩,
    fun ops ls xs hne hls hxs => ⟨?procsEach, expandProcs_ok hxs⟩, fun m ops hm => ?unknown, fun s => ?init⟩
  case reconf => rw [parseOperands_reconf, parseTwo_ok _ hu hv]
  case procsEach => rw [parseOperands_procsEach hne, hls, Except.map]
  case unknown =>
    simp only [List.mem_cons, List.not_mem_nil, or_false, not_or] at hm
    simp only [parseOperands, hm, if_false]
  case init =>
    obtain ⟨t, ht, hcoef, hin, hout⟩ := execAll_config_reset fcDefault fsDefault s
    exact ⟨t, ht, hcoef.trans coefRom_default, hin, hout⟩

end Sys2Proof.Machine
end

section
/-! CONFIG (R104) and the clamps of the ROM's operands (R100, R101), with the rows of R103 for operands that are not finite.
Both clamps are one operation, `clampBelow`, and its laws are proved once. -/

namespace Sys2Proof.Machine

theorem decode_config (a b : Word) : decode ⟨0x00000001#32, a, b⟩ = .ok (.config a b) := by
  simpa using (decodeIsTheOpcodeMap 0x00000001#32 a b).2 (by decide)

/-- CONFIG writes COEF and answers (OK, 0), and leaves every other field (R104). -/
theorem exec_config (a b : Word) (s : State) :
    exec (.config a b) s = .next { s with coef := coefRom a b, responses := s.responses ++ [⟨.ok, 0#32⟩] } := rfl

/-- Settles O17: the decoder takes both operand words as they are, and the worked example is the ROM's value at the
construction's operands. -/
theorem configCompletes : Obligations.ConfigCompletes :=
  ⟨decode_config, fun s a b => exec_config a b s, coefRom_default⟩

/-! ### The order of binary32 values (R11) -/

theorem orderKey_eq (w : Word) : orderKey w = if signBit w then -(lowBits w : Int) else lowBits w := by
  have h := toNat_eq_lowBits w
  rw [orderKey]
  split <;> simp_all

/-- The keys are in the order of the numbers: a magnitude pattern and its value are zero together and grow together. -/
theorem orderKey_lt_iff_units (a b : Word) : orderKey a < orderKey b ↔ units a < units b := by
  have hab := magValue_strictMono.lt_iff_lt (a := lowBits a) (b := lowBits b)
  have hba := magValue_strictMono.lt_iff_lt (a := lowBits b) (b := lowBits a)
  have hpos : ∀ p, 0 < magValue p ↔ 0 < p := fun p => magValue_strictMono.lt_iff_lt (a := 0) (b := p)
  have ha := hpos (lowBits a)
  have hb := hpos (lowBits b)
  rw [orderKey_eq, orderKey_eq, units_eq, units_eq]
  cases signBit a <;> cases signBit b <;> simp only [if_true, Bool.false_eq_true, if_false] <;> omega

theorem real_lt_real_iff (a b : Word) : real a < real b ↔ units a < units b := by
  rw [real, real, div_lt_div_iff_of_pos_right (by positivity), Int.cast_lt]

/-- On finite values lt32 is the order of the numbers (R11). -/
theorem lt32_iff_of_finite {a b : Word} (ha : isFinite a = true) (hb : isFinite b = true) :
    lt32 a b = true ↔ real a < real b := by
  rw [lt32, isNaN_of_finite ha, isNaN_of_finite hb, real_lt_real_iff, ← orderKey_lt_iff_units]
  simp

/-- lt32 is false for a NaN (R11). -/
theorem lt32_of_nan {a b : Word} (h : isNaN a = true ∨ isNaN b = true) : lt32 a b = false := by
  rcases h with h | h <;> simp [lt32, h]

/-- Finite values have keys strictly between those of the infinities. -/
theorem abs_orderKey_lt_of_finite {w : Word} (h : isFinite w = true) : |orderKey w| < 0x7F800000 := by
  have hlow := (isFinite_iff w).1 h
  rw [orderKey_eq, abs_lt]
  split <;> omega

theorem lt32_posInf_of_finite {b : Word} (hb : isFinite b = true) : lt32 0x7F800000#32 b = false := by
  have hkey : orderKey 0x7F800000#32 = 0x7F800000 := by decide
  have := (abs_lt.1 (abs_orderKey_lt_of_finite hb)).2
  rw [lt32, hkey, decide_eq_false (by omega), Bool.and_false]

theorem lt32_negInf_of_finite {b : Word} (hb : isFinite b = true) : lt32 0xFF800000#32 b = true := by
  have hkey : orderKey 0xFF800000#32 = -0x7F800000 := by decide
  have := (abs_lt.1 (abs_orderKey_lt_of_finite hb)).1
  have hnan : isNaN 0xFF800000#32 = false := by decide
  rw [lt32, hkey, decide_eq_true (by omega), hnan, isNaN_of_finite hb]
  rfl

theorem isInf_cases {w : Word} (h : isInf w = true) : w = 0x7F800000#32 ∨ w = 0xFF800000#32 := by
  have hw := pack_self w
  rw [(isInf_iff w).1 h] at hw
  cases hs : signBit w
  · exact .inl (by rw [← hw, hs]; rfl)
  · exact .inr (by rw [← hw, hs]; rfl)

/-! ### The clamps (R100, R101) -/

/-- A value below `bound` replaced by `repl`; every other value, a NaN too, is kept. -/
def clampBelow (bound repl w : Word) : Word := if lt32 w bound then repl else w

theorem clampCutoff_eq_clampBelow (fc : Word) : clampCutoff fc = clampBelow fcMin fcMin fc := rfl

theorem clampRate_eq_clampBelow (fs : Word) : clampRate fs = clampBelow fsMin fsFallback fs := rfl

section
variable {bound repl w : Word}

theorem clampBelow_of_finite (hb : isFinite bound = true) (hw : isFinite w = true) :
    clampBelow bound repl w = if real w < real bound then repl else w := by
  simp only [clampBelow, lt32_iff_of_finite hw hb]

theorem clampBelow_of_nan (h : isNaN w = true) : clampBelow bound repl w = w := by
  rw [clampBelow, lt32_of_nan (.inl h), if_neg Bool.false_ne_true]

theorem clampBelow_posInf (hb : isFinite bound = true) : clampBelow bound repl 0x7F800000#32 = 0x7F800000#32 := by
  rw [clampBelow, lt32_posInf_of_finite hb, if_neg Bool.false_ne_true]

theorem clampBelow_negInf (hb : isFinite bound = true) : clampBelow bound repl 0xFF800000#32 = repl := by
  rw [clampBelow, lt32_negInf_of_finite hb, if_pos rfl]

theorem clampBelow_idem (h : lt32 repl bound = false) :
    clampBelow bound repl (clampBelow bound repl w) = clampBelow bound repl w := by
  cases hw : lt32 w bound <;> simp [clampBelow, hw, h]

/-- What a clamp can give: a NaN, +infinity, or a finite value from the bound on. -/
theorem clampBelow_cases (hb : isFinite bound = true) (hr : isFinite repl = true) (hle : real bound ≤ real repl)
    (w : Word) :
    isNaN (clampBelow bound repl w) = true ∨ clampBelow bound repl w = 0x7F800000#32 ∨
      (isFinite (clampBelow bound repl w) = true ∧ real bound ≤ real (clampBelow bound repl w)) := by
  rcases word_cases w with hw | hw | hw
  · right; right
    rw [clampBelow_of_finite hb hw]
    split
    · exact ⟨hr, hle⟩
    · next hlt => exact ⟨hw, not_lt.1 hlt⟩
  · rcases isInf_cases hw with rfl | rfl
    · exact .inr (.inl (clampBelow_posInf hb))
    · rw [clampBelow_negInf hb]
      exact .inr (.inr ⟨hr, hle⟩)
  · exact .inl (by rwa [clampBelow_of_nan hw])

end

theorem isFinite_fcMin : isFinite fcMin = true := by decide
theorem isFinite_fsMin : isFinite fsMin = true := by decide
theorem isFinite_fsFallback : isFinite fsFallback = true := by decide
theorem real_fcMin : real fcMin = 1 := by decide +kernel
theorem real_fsMin : real fsMin = 1000 := by decide +kernel
theorem real_fsFallback : real fsFallback = 44100 := by decide +kernel

theorem clampCutoff_idem (fc : Word) : clampCutoff (clampCutoff fc) = clampCutoff fc :=
  clampBelow_idem (by decide)

theorem clampRate_idem (fs : Word) : clampRate (clampRate fs) = clampRate fs :=
  clampBelow_idem (by decide)

/-- A clamped cutoff is a NaN, +infinity or at least 1.0 (R103). -/
theorem clampCutoff_cases (fc : Word) :
    isNaN (clampCutoff fc) = true ∨ clampCutoff fc = 0x7F800000#32 ∨
      (isFinite (clampCutoff fc) = true ∧ 1 ≤ real (clampCutoff fc)) := by
  rw [← real_fcMin]
  exact clampBelow_cases isFinite_fcMin isFinite_fcMin le_rfl fc

/-- A clamped rate is a NaN, +infinity or at least 1000.0 (R103). -/
theorem clampRate_cases (fs : Word) :
    isNaN (clampRate fs) = true ∨ clampRate fs = 0x7F800000#32 ∨
      (isFinite (clampRate fs) = true ∧ 1000 ≤ real (clampRate fs)) := by
  rw [← real_fsMin]
  refine clampBelow_cases isFinite_fsMin isFinite_fsFallback ?_ fs
  rw [real_fsMin, real_fsFallback]
  norm_num

theorem coefRom_clamp (fc fs : Word) : coefRom fc fs = coefRom (clampCutoff fc) (clampRate fs) := by
  rw [coefRom, coefRom, clampCutoff_idem, clampRate_idem]

/-- Settles O36: each clamp is `clampBelow`, whose value is known for a finite operand, for each infinity and for a NaN; and
clamping twice is clamping once. -/
theorem romClampsItsOperands : Obligations.RomClampsItsOperands := by
  refine ⟨fun w => ⟨fun hw => ⟨?cutoff, ?rate⟩, ?kept⟩, clampBelow_negInf isFinite_fcMin,
    clampBelow_negInf isFinite_fsMin, coefRom_clamp, by decide⟩
  case cutoff => rw [clampCutoff_eq_clampBelow, clampBelow_of_finite isFinite_fcMin hw, real_fcMin, fcMin]
  case rate => rw [clampRate_eq_clampBelow, clampBelow_of_finite isFinite_fsMin hw, real_fsMin, fsFallback]
  case kept =>
    rintro (hnan | rfl)
    · exact ⟨clampBelow_of_nan hnan, clampBelow_of_nan hnan⟩
    · exact ⟨clampBelow_posInf isFinite_fcMin, clampBelow_posInf isFinite_fsMin⟩

/-! ### The rows of R103 -/

theorem coefRomClamped_of_nan {fc fs : Word} (h : isNaN fc = true ∨ isNaN fs = true) :
    coefRomClamped fc fs = canonicalNaN := by
  rcases h with h | h <;> simp [coefRomClamped, h]

theorem coefRomClamped_inf_finite {fs : Word} (hs : isFinite fs = true) :
    coefRomClamped 0x7F800000#32 fs = plusZero := by
  have hnan : isNaN 0x7F800000#32 = false := by decide
  have hinf : isInf 0x7F800000#32 = true := by decide
  simp [coefRomClamped, hnan, hinf, isNaN_of_finite hs, isInf_of_finite hs]

theorem coefRomClamped_finite_inf {fc : Word} (hc : isFinite fc = true) :
    coefRomClamped fc 0x7F800000#32 = one32 := by
  have hnan : isNaN 0x7F800000#32 = false := by decide
  have hinf : isInf 0x7F800000#32 = true := by decide
  simp [coefRomClamped, hnan, hinf, isNaN_of_finite hc, isInf_of_finite hc]

theorem coefRomClamped_inf_inf : coefRomClamped 0x7F800000#32 0x7F800000#32 = canonicalNaN := by decide

theorem coefRomClamped_finite {fc fs : Word} (hc : isFinite fc = true) (hs : isFinite fs = true) :
    coefRomClamped fc fs = coefRomFinite fc fs := by
  simp [coefRomClamped, isNaN_of_finite hc, isNaN_of_finite hs, isInf_of_finite hc, isInf_of_finite hs]

/-- Settles O38: what the clamps can give, and one lemma for each kind of row. -/
theorem romNonFiniteOperands : Obligations.RomNonFiniteOperands := by
  refine ⟨clampCutoff_cases, clampRate_cases, fun fc fs =>
    ⟨fun hc => coefRomClamped_of_nan (.inl hc), fun hs => coefRomClamped_of_nan (.inr hs),
      fun hc hs => ?inf_finite, fun hc hs => ?finite_inf, fun hc hs => ?inf_inf⟩⟩
  case inf_finite => rw [coefRom, hc]; exact coefRomClamped_inf_finite hs
  case finite_inf => rw [coefRom, hs]; exact coefRomClamped_finite_inf hc
  case inf_inf => rw [coefRom, hc, hs]; exact coefRomClamped_inf_inf

end Sys2Proof.Machine
end

section
/-! Midpoints between neighbouring binary32 magnitudes (R11): a rounded value lies between the two around its pattern, and a
number strictly between them has one nearest word. -/

namespace Sys2Proof.Machine

/-! ### Neighbouring magnitudes -/

/-- A magnitude and the next one are neighbouring counts of at most 24 bits of one power of two. -/
theorem magValue_neighbours (p : Nat) :
    ∃ m k, m < 2 ^ 24 ∧ magValue p = m * 2 ^ k ∧ magValue (p + 1) = (m + 1) * 2 ^ k := by
  rcases Nat.lt_or_ge p (2 ^ 23) with h | h
  · refine ⟨p, 0, by omega, ?_, ?_⟩ <;> rw [magValue_small _ (by omega)] <;> simp
  · have hp : p = (p / 2 ^ 23 - 1) * 2 ^ 23 + (2 ^ 23 + p % 2 ^ 23) := by omega
    refine ⟨2 ^ 23 + p % 2 ^ 23, p / 2 ^ 23 - 1, by omega, ?_, ?_⟩
    · conv_lhs => rw [hp]
      exact magValue_shift _ _ (by omega) (.inr (by omega))
    · conv_lhs => rw [hp, Nat.add_assoc]
      exact magValue_shift _ _ (by omega) (.inr (by omega))

theorem magValue_zero : magValue 0 = 0 := by decide

/-- The midpoint between the magnitude `p` and the next one. -/
noncomputable def midpoint (p : Nat) : ℝ := ((magValue p : ℝ) + magValue (p + 1)) / 2 ^ 150

theorem midpoint_pos (p : Nat) : 0 < midpoint p := by
  have h : 0 < magValue (p + 1) := magValue_zero ▸ magValue_strictMono p.succ_pos
  have hR : (0 : ℝ) < magValue (p + 1) := by exact_mod_cast h
  rw [midpoint]; positivity

theorem midpoint_dyadic (p : Nat) : ∃ m k : Nat, 0 < m ∧ m ≤ 2 ^ 25 ∧ midpoint p = (m * 2 ^ k : ℝ) / 2 ^ 150 := by
  obtain ⟨m, k, hm, hp, hp1⟩ := magValue_neighbours p
  refine ⟨2 * m + 1, k, by omega, by omega, ?_⟩
  rw [midpoint, hp, hp1]
  push_cast
  ring

/-- Below 1, the midpoint's odds have a numerator of at most 150 bits and a denominator of at most 25. -/
theorem midpoint_odds {p : Nat} (h : midpoint p < 1) :
    ∃ a b : Nat, a ≤ 2 ^ 150 ∧ 0 < b ∧ b ≤ 2 ^ 25 ∧ (1 - midpoint p) / midpoint p = a / b := by
  obtain ⟨m, k, hm, hm', hmid⟩ := midpoint_dyadic p
  have hmR : (0 : ℝ) < m := by exact_mod_cast hm
  have hlt : m * 2 ^ k < 2 ^ 150 := by
    rw [hmid, div_lt_one (by positivity)] at h
    exact_mod_cast h
  have hk : k ≤ 150 := by
    by_contra hk
    have h1 : 2 ^ 150 ≤ 2 ^ k := Nat.pow_le_pow_right (by decide) (by omega)
    have h2 : 2 ^ k ≤ m * 2 ^ k := Nat.le_mul_of_pos_left _ hm
    omega
  have hpow : 2 ^ (150 - k) * 2 ^ k = 2 ^ 150 := by rw [← Nat.pow_add, Nat.sub_add_cancel hk]
  have hmle : m ≤ 2 ^ (150 - k) := by
    refine Nat.le_of_mul_le_mul_right ?_ (by positivity : 0 < 2 ^ k)
    rw [hpow]
    exact hlt.le
  refine ⟨2 ^ (150 - k) - m, m, (Nat.sub_le _ _).trans (Nat.pow_le_pow_right (by decide) (by omega)), hm, hm', ?_⟩
  have hpowR : (2 : ℝ) ^ 150 = 2 ^ (150 - k) * 2 ^ k := by exact_mod_cast hpow.symm
  rw [hmid, hpowR, Nat.cast_sub hmle]
  push_cast
  field_simp

/-! ### A rounded value lies between the midpoints around its pattern -/

section
variable {α : Type} [CommRing α] [LinearOrder α] [IsStrictOrderedRing α] {a b : α}

/-- The lesser of two numbers is the nearer one exactly up to their midpoint. -/
theorem abs_sub_le_abs_sub_iff_of_lt (h : a < b) (t : α) : |a - t| ≤ |b - t| ↔ 2 * t ≤ a + b := by
  have hba : 0 < b - a := sub_pos.2 h
  have hsq : (b - t) ^ 2 - (a - t) ^ 2 = (b - a) * (a + b - 2 * t) := by ring
  rw [← sq_le_sq, ← sub_nonneg, hsq, mul_nonneg_iff_of_pos_left hba, sub_nonneg]

/-- The greater of two numbers is the nearer one exactly from their midpoint on. -/
theorem abs_sub_le_abs_sub_iff_of_gt (h : a < b) (t : α) : |b - t| ≤ |a - t| ↔ a + b ≤ 2 * t := by
  have hba : 0 < b - a := sub_pos.2 h
  have hsq : (a - t) ^ 2 - (b - t) ^ 2 = (b - a) * (2 * t - (a + b)) := by ring
  rw [← sq_le_sq, ← sub_nonneg, hsq, mul_nonneg_iff_of_pos_left hba, sub_nonneg]

end

theorem magValue_mul_lt_succ (p : Nat) {d : Nat} (hd : 0 < d) :
    ((magValue p * d : Nat) : Int) < (magValue (p + 1) * d : Nat) := by
  exact_mod_cast Nat.mul_lt_mul_of_pos_right (magValue_strictMono (Nat.lt_add_one p)) hd

theorem le_midpoint_roundPattern {n d : Nat} (hd : 0 < d) : (n : ℝ) / d / 2 ^ 149 ≤ midpoint (roundPattern n d) := by
  have hsum := (abs_sub_le_abs_sub_iff_of_lt (magValue_mul_lt_succ _ hd) _).1
    (roundPattern_nearest n d (roundPattern n d + 1) hd).1
  have hsumR : (2 : ℝ) * n ≤ magValue (roundPattern n d) * d + magValue (roundPattern n d + 1) * d := by
    exact_mod_cast hsum
  rw [midpoint, div_div, div_le_div_iff₀ (by positivity) (by positivity)]
  linarith

theorem midpoint_le_of_roundPattern {n d p : Nat} (hd : 0 < d) (hp : roundPattern n d = p + 1) :
    midpoint p ≤ (n : ℝ) / d / 2 ^ 149 := by
  have hnear := (roundPattern_nearest n d p hd).1
  rw [hp, abs_sub_le_abs_sub_iff_of_gt (magValue_mul_lt_succ p hd)] at hnear
  have hsumR : (magValue p : ℝ) * d + magValue (p + 1) * d ≤ 2 * n := by exact_mod_cast hnear
  rw [midpoint, div_div, div_le_div_iff₀ (by positivity) (by positivity)]
  linarith

/-! ### The word between whose midpoints a number lies is strictly nearest to it -/

/-- No word's value lies strictly between two neighbouring magnitudes. -/
theorem magValue_succ_le_units {p : Nat} {v : Word} (h : (magValue p : Int) < units v) :
    (magValue (p + 1) : Int) ≤ units v := by
  rw [units_eq] at h ⊢
  split at h
  · omega
  · have hp := magValue_strictMono.lt_iff_lt.1 (Int.ofNat_lt.1 h)
    rw [if_neg ‹_›]
    exact_mod_cast magValue_strictMono.monotone hp

theorem units_le_magValue {p : Nat} {v : Word} (h : units v < magValue (p + 1)) : units v ≤ magValue p :=
  not_lt.1 fun hlt => absurd (magValue_succ_le_units hlt) (not_le.2 h)

theorem strictlyNearest_of_midpoints {w v : Word} {t : ℝ} (hsign : signBit w = false) (ht : 0 < t)
    (habove : t < midpoint (lowBits w)) (hbelow : ∀ p, lowBits w = p + 1 → midpoint p < t) (hne : real v ≠ real w) :
    |((real w : ℚ) : ℝ) - t| < |((real v : ℚ) : ℝ) - t| := by
  have hw : units w = magValue (lowBits w) := by rw [units_eq, if_neg (by simp [hsign])]
  rw [← not_le]
  rcases lt_or_gt_of_ne hne with hlt | hgt
  · rw [abs_sub_le_abs_sub_iff_of_lt (by exact_mod_cast hlt), not_le, real_cast, real_cast, hw]
    rw [real_lt_real_iff, hw] at hlt
    match hp : lowBits w with
    | 0 =>
      rw [hp, magValue_zero] at hlt
      have hv : (units v : ℝ) < 0 := by exact_mod_cast hlt
      have := div_neg_of_neg_of_pos hv (by positivity : (0 : ℝ) < 2 ^ 149)
      rw [magValue_zero]
      norm_num
      linarith
    | p + 1 =>
      rw [hp] at hlt
      have hv : (units v : ℝ) ≤ magValue p := by exact_mod_cast units_le_magValue hlt
      have hmid := hbelow p hp
      rw [midpoint] at hmid
      push_cast
      linarith
  · rw [abs_sub_le_abs_sub_iff_of_gt (by exact_mod_cast hgt), not_le, real_cast, real_cast, hw]
    rw [real_lt_real_iff, hw] at hgt
    have hv : (magValue (lowBits w + 1) : ℝ) ≤ units v := by exact_mod_cast magValue_succ_le_units hgt
    rw [midpoint] at habove
    push_cast
    linarith

/-- Where no other value is as near, ties to even asks for nothing (R11). -/
theorem nearestEven_of_strictlyNearest {w : Word} {t : ℝ} (hw : isFinite w = true)
    (h : ∀ v, real v ≠ real w → |((real w : ℚ) : ℝ) - t| < |((real v : ℚ) : ℝ) - t|) : NearestEven w t := by
  refine ⟨hw, fun v _ => ⟨?_, fun htie hne => absurd htie (h v hne).ne⟩⟩
  rcases eq_or_ne (real v) (real w) with heq | hne
  · rw [heq]
  · exact (h v hne).le

/-- Rounding does not pass a binary32 value from below. -/
theorem NearestEven.le_real {w v : Word} {t : ℝ} (h : NearestEven w t) (hv : isFinite v = true)
    (ht : t ≤ ((real v : ℚ) : ℝ)) : real w ≤ real v := by
  by_contra hlt
  have hltR : ((real v : ℚ) : ℝ) < ((real w : ℚ) : ℝ) := by exact_mod_cast not_le.1 hlt
  have := (abs_sub_le_abs_sub_iff_of_gt hltR t).1 (h.2 v hv).1
  linarith

/-- Rounding does not pass a binary32 value from above. -/
theorem NearestEven.real_le {w v : Word} {t : ℝ} (h : NearestEven w t) (hv : isFinite v = true)
    (ht : ((real v : ℚ) : ℝ) ≤ t) : real v ≤ real w := by
  by_contra hlt
  have hltR : ((real w : ℚ) : ℝ) < ((real v : ℚ) : ℝ) := by exact_mod_cast not_le.1 hlt
  have := (abs_sub_le_abs_sub_iff_of_lt hltR t).1 (h.2 v hv).1
  linarith

end Sys2Proof.Machine
end

section
/-! The rounded ROM value (R102). The model computes with `piNum / piDen`; its ratio lies on the same side of every midpoint
between neighbouring magnitudes as the ratio with the number π (log entry 9), so the pattern nearest to the one is the pattern
nearest to the other. The ratio with π is irrational, so it is no midpoint and the nearest pattern is strictly nearest. -/

namespace Sys2Proof.Machine

/-! ### Fractions on the same side of π and of its convergent -/

/-- `q` is on the same side of π as of `piNum / piDen`. -/
def SameSideOfPi (q : ℝ) : Prop :=
  (q < Real.pi ↔ q < (piNum : ℝ) / piDen) ∧ (Real.pi < q ↔ (piNum : ℝ) / piDen < q)

theorem piDen_pos : (0 : ℝ) < piDen := by exact_mod_cast (by decide : 0 < piDen)

theorem three_lt_convergent : 3 < (piNum : ℝ) / piDen := by
  rw [lt_div_iff₀ piDen_pos]
  exact_mod_cast (by decide : 3 * piDen < piNum)

theorem sameSideOfPi_of_le_three {q : ℝ} (h : q ≤ 3) : SameSideOfPi q := by
  have hpi := Real.pi_gt_three
  have hconv := three_lt_convergent
  constructor <;> constructor <;> intro <;> linarith

theorem sameSideOfPi_div {p q : Nat} (hq : 0 < q) (hlt : q < piDen) : SameSideOfPi ((p : ℝ) / q) := by
  have hqR : (0 : ℝ) < q := by exact_mod_cast hq
  obtain ⟨hbelow, habove⟩ := lt_pi_iff p q hq hlt
  constructor
  · rw [hbelow, div_lt_div_iff₀ hqR piDen_pos]; norm_cast
  · rw [habove, div_lt_div_iff₀ piDen_pos hqR]; norm_cast

/-- A fraction of at most 174 bits over at most 50, times a power of two: where the power makes the denominator too large
for `sameSideOfPi_div`, it makes the fraction small. -/
theorem sameSideOfPi_dyadic {a b : Nat} (x y : Nat) (ha : a ≤ 2 ^ 174) (hb : 0 < b) (hb' : b ≤ 2 ^ 50) :
    SameSideOfPi ((a * 2 ^ x : ℝ) / (b * 2 ^ y)) := by
  have hbR : (0 : ℝ) < b := by exact_mod_cast hb
  rcases Nat.le_total y x with hyx | hxy
  · obtain ⟨z, rfl⟩ := Nat.exists_eq_add_of_le hyx
    have hred : (a * 2 ^ (y + z) : ℝ) / (b * 2 ^ y) = ((a * 2 ^ z : Nat) : ℝ) / b := by
      push_cast; rw [pow_add]; field_simp
    rw [hred]
    exact sameSideOfPi_div hb (hb'.trans_lt (by decide))
  · obtain ⟨z, rfl⟩ := Nat.exists_eq_add_of_le hxy
    have hred : (a * 2 ^ x : ℝ) / (b * 2 ^ (x + z)) = (a : ℝ) / ((b * 2 ^ z : Nat) : ℝ) := by
      push_cast; rw [pow_add]; field_simp
    rw [hred]
    have hpos : 0 < b * 2 ^ z := by positivity
    rcases Nat.lt_or_ge (b * 2 ^ z) piDen with hlt | hge
    · exact sameSideOfPi_div hpos hlt
    · have hle : a ≤ b * 2 ^ z := ha.trans ((by decide : 2 ^ 174 ≤ piDen).trans hge)
      apply sameSideOfPi_of_le_three
      have : (a : ℝ) / ((b * 2 ^ z : Nat) : ℝ) ≤ 1 := div_le_one_of_le₀ (by exact_mod_cast hle) (by positivity)
      linarith

/-! ### The ratio of R102 -/

/-- fs / (fs + 2 c fc): the ratio of R102 with `c` in place of π. -/
noncomputable def rcRatio (c fc fs : ℝ) : ℝ := fs / (fs + 2 * c * fc)

section
variable {c fc fs m : ℝ} (hc : 0 < c) (hfc : 0 < fc) (hfs : 0 < fs)
include hc hfc hfs

theorem rcRatio_pos : 0 < rcRatio c fc fs := by rw [rcRatio]; positivity

theorem rcRatio_lt_one : rcRatio c fc fs < 1 := by
  rw [rcRatio, div_lt_one (by positivity)]
  have : 0 < 2 * c * fc := by positivity
  linarith

theorem rcRatio_le_iff (hm : 0 < m) : rcRatio c fc fs ≤ m ↔ fs * (1 - m) / (2 * fc * m) ≤ c := by
  rw [rcRatio, div_le_iff₀ (by positivity), div_le_iff₀ (by positivity)]
  constructor <;> intro h <;> linarith

theorem le_rcRatio_iff (hm : 0 < m) : m ≤ rcRatio c fc fs ↔ c ≤ fs * (1 - m) / (2 * fc * m) := by
  rw [rcRatio, le_div_iff₀ (by positivity), le_div_iff₀ (by positivity)]
  constructor <;> intro h <;> linarith

end

/-- The ratio does not depend on the unit of its operands. -/
theorem rcRatio_div (c fc fs : ℝ) {u : ℝ} (hu : u ≠ 0) : rcRatio c (fc / u) (fs / u) = rcRatio c fc fs := by
  rw [rcRatio, rcRatio, ← mul_div_assoc, ← add_div, div_div_div_cancel_right₀ hu]

theorem rcRatio_pi_irrational {fc fs : ℚ} (hfc : 0 < fc) (hfs : 0 < fs) : Irrational (rcRatio Real.pi fc fs) := by
  rintro ⟨q, hq⟩
  have hfcR : (0 : ℝ) < fc := by exact_mod_cast hfc
  have hfsR : (0 : ℝ) < fs := by exact_mod_cast hfs
  have hqpos : (0 : ℝ) < q := hq ▸ rcRatio_pos Real.pi_pos hfcR hfsR
  refine irrational_pi ⟨fs * (1 - q) / (2 * fc * q), ?_⟩
  push_cast
  exact le_antisymm ((rcRatio_le_iff Real.pi_pos hfcR hfsR hqpos).1 hq.ge)
    ((le_rcRatio_iff Real.pi_pos hfcR hfsR hqpos).1 hq.le)

/-- The value that `c` must have for the ratio to be a midpoint is not between π and its convergent. -/
theorem sameSideOfPi_midpoint (p j : Nat) {i : Nat} (hi : 0 < magValue i) :
    SameSideOfPi (magValue j * (1 - midpoint p) / (2 * magValue i * midpoint p)) := by
  have hmid := midpoint_pos p
  have hiR : (0 : ℝ) < magValue i := by exact_mod_cast hi
  rcases lt_or_ge (midpoint p) 1 with hlt | hge
  · obtain ⟨f, x, hf, hif, -⟩ := magValue_neighbours i
    obtain ⟨r, y, hr, hjr, -⟩ := magValue_neighbours j
    obtain ⟨a, b, ha, hb, hb', hodds⟩ := midpoint_odds hlt
    have hfpos : 0 < f := Nat.pos_of_mul_pos_right (hif ▸ hi)
    have hq : (magValue j * (1 - midpoint p) / (2 * magValue i * midpoint p) : ℝ) =
        ((r * a : Nat) * 2 ^ y) / ((f * b : Nat) * 2 ^ (x + 1)) := by
      rw [mul_div_mul_comm, hodds, hif, hjr]
      push_cast
      rw [pow_succ]
      field_simp
    rw [hq]
    refine sameSideOfPi_dyadic y (x + 1) ?_ (Nat.mul_pos hfpos hb) ?_
    · exact (Nat.mul_le_mul hr.le ha).trans (by decide)
    · exact (Nat.mul_le_mul hf.le hb').trans (by decide)
  · refine sameSideOfPi_of_le_three (le_trans ?_ (by norm_num : (0 : ℝ) ≤ 3))
    exact div_nonpos_of_nonpos_of_nonneg (mul_nonpos_of_nonneg_of_nonpos (by positivity) (by linarith)) (by positivity)

section
variable {i j : Nat} (hi : 0 < magValue i) (hj : 0 < magValue j)
include hi hj

theorem rcRatio_convergent_le_midpoint_iff (p : Nat) :
    rcRatio (piNum / piDen) (magValue i) (magValue j) ≤ midpoint p ↔
      rcRatio Real.pi (magValue i) (magValue j) ≤ midpoint p := by
  have hside := (sameSideOfPi_midpoint p j hi).2
  have hconv := three_lt_convergent
  rw [rcRatio_le_iff (by linarith) (by exact_mod_cast hi) (by exact_mod_cast hj) (midpoint_pos p),
    rcRatio_le_iff Real.pi_pos (by exact_mod_cast hi) (by exact_mod_cast hj) (midpoint_pos p), ← not_lt, ← not_lt, hside]

theorem midpoint_le_rcRatio_convergent_iff (p : Nat) :
    midpoint p ≤ rcRatio (piNum / piDen) (magValue i) (magValue j) ↔
      midpoint p ≤ rcRatio Real.pi (magValue i) (magValue j) := by
  have hside := (sameSideOfPi_midpoint p j hi).1
  have hconv := three_lt_convergent
  rw [le_rcRatio_iff (by linarith) (by exact_mod_cast hi) (by exact_mod_cast hj) (midpoint_pos p),
    le_rcRatio_iff Real.pi_pos (by exact_mod_cast hi) (by exact_mod_cast hj) (midpoint_pos p), ← not_lt, ← not_lt, hside]

end

/-! ### The ROM's pattern -/

/-- The low bits of the ROM's value for operands of the magnitudes `i` and `j`. -/
def romPattern (i j : Nat) : Nat :=
  roundPattern (2 ^ 149 * (piDen * magValue j)) (piDen * magValue j + 2 * piNum * magValue i)

theorem romDenominator_pos (i : Nat) {j : Nat} (hj : 0 < magValue j) :
    0 < piDen * magValue j + 2 * piNum * magValue i :=
  Nat.add_pos_left (Nat.mul_pos (by decide) hj) _

theorem romPattern_finite (i : Nat) {j : Nat} (hj : 0 < magValue j) : romPattern i j < 0x7F800000 := by
  rw [romPattern, roundPattern_finite_iff _ _ (romDenominator_pos i hj)]
  have hpos := romDenominator_pos i hj
  have hle : 2 ^ 149 * (piDen * magValue j) ≤ 2 ^ 149 * (piDen * magValue j + 2 * piNum * magValue i) :=
    Nat.mul_le_mul_left _ (Nat.le_add_right _ _)
  omega

/-- What the ROM rounds is the ratio with the convergent (log entry 9). -/
theorem rcRatio_convergent (i : Nat) {j : Nat} (hj : 0 < magValue j) :
    ((2 ^ 149 * (piDen * magValue j) : Nat) : ℝ) / (piDen * magValue j + 2 * piNum * magValue i : Nat) / 2 ^ 149 =
      rcRatio (piNum / piDen) (magValue i) (magValue j) := by
  have hden : (0 : ℝ) < (piDen * magValue j + 2 * piNum * magValue i : Nat) := by exact_mod_cast romDenominator_pos i hj
  have hD := piDen_pos
  rw [rcRatio]
  push_cast at hden ⊢
  field_simp
  norm_num

theorem rcRatio_le_midpoint_romPattern {i j : Nat} (hi : 0 < magValue i) (hj : 0 < magValue j) :
    rcRatio Real.pi (magValue i) (magValue j) ≤ midpoint (romPattern i j) := by
  rw [← rcRatio_convergent_le_midpoint_iff hi hj, ← rcRatio_convergent i hj]
  exact le_midpoint_roundPattern (romDenominator_pos i hj)

theorem midpoint_le_rcRatio_of_romPattern {i j p : Nat} (hi : 0 < magValue i) (hj : 0 < magValue j)
    (hp : romPattern i j = p + 1) : midpoint p ≤ rcRatio Real.pi (magValue i) (magValue j) := by
  rw [← midpoint_le_rcRatio_convergent_iff hi hj, ← rcRatio_convergent i hj]
  exact midpoint_le_of_roundPattern (romDenominator_pos i hj) hp

theorem magValue_lowBits_of_real_pos {w : Word} (h : 0 < real w) :
    0 < magValue (lowBits w) ∧ ((real w : ℚ) : ℝ) = magValue (lowBits w) / 2 ^ 149 := by
  have hunits : 0 < units w := by
    have := div_pos_iff_of_pos_right (a := (units w : ℚ)) (by positivity : (0 : ℚ) < 2 ^ 149)
    exact_mod_cast this.1 h
  rw [real_cast]
  rw [units_eq] at hunits ⊢
  split at hunits
  · omega
  · rw [if_neg ‹_›]
    exact ⟨by omega, by push_cast; rfl⟩

theorem midpoint_eq_ratCast (p : Nat) :
    midpoint p = (((magValue p + magValue (p + 1)) / 2 ^ 150 : ℚ) : ℝ) := by
  rw [midpoint]; push_cast; rfl

section
variable (fc : Word) {fs : Word} (hfs : 0 < real fs)
include hfs

theorem coefRomFinite_eq_pack : coefRomFinite fc fs = pack false (romPattern (lowBits fc) (lowBits fs)) := by
  obtain ⟨hj, -⟩ := magValue_lowBits_of_real_pos hfs
  rw [coefRomFinite, roundRational, magUnits_eq, magUnits_eq, roundMag_eq, ← romPattern,
    Nat.min_eq_left (romPattern_finite _ hj).le]

theorem lowBits_coefRomFinite : lowBits (coefRomFinite fc fs) = romPattern (lowBits fc) (lowBits fs) := by
  obtain ⟨hj, -⟩ := magValue_lowBits_of_real_pos hfs
  rw [coefRomFinite_eq_pack fc hfs, lowBits_pack _ _ ((romPattern_finite _ hj).trans (by decide))]

theorem signBit_coefRomFinite : signBit (coefRomFinite fc fs) = false := by
  obtain ⟨hj, -⟩ := magValue_lowBits_of_real_pos hfs
  rw [coefRomFinite_eq_pack fc hfs, signBit_pack _ _ ((romPattern_finite _ hj).trans (by decide))]

theorem isFinite_coefRomFinite : isFinite (coefRomFinite fc fs) = true := by
  obtain ⟨hj, -⟩ := magValue_lowBits_of_real_pos hfs
  rw [isFinite_iff, lowBits_coefRomFinite fc hfs]
  exact romPattern_finite _ hj

end

section
variable {fc fs : Word} (hfc : 0 < real fc) (hfs : 0 < real fs)
include hfc hfs

/-- No binary32 value is as near to the ratio with the number π as the ROM's. -/
theorem coefRomFinite_strictlyNearest {v : Word} (hne : real v ≠ real (coefRomFinite fc fs)) :
    |((real (coefRomFinite fc fs) : ℚ) : ℝ) - rcRatio Real.pi (real fc : ℚ) (real fs : ℚ)| <
      |((real v : ℚ) : ℝ) - rcRatio Real.pi (real fc : ℚ) (real fs : ℚ)| := by
  have hpos := rcRatio_pos Real.pi_pos (Rat.cast_pos (K := ℝ).2 hfc) (Rat.cast_pos.2 hfs)
  have hnotmid (p : Nat) : rcRatio Real.pi (real fc : ℚ) (real fs : ℚ) ≠ midpoint p := by
    rw [midpoint_eq_ratCast]; exact (rcRatio_pi_irrational hfc hfs).ne_rat _
  have hlow := lowBits_coefRomFinite fc hfs
  obtain ⟨hi, hfcR⟩ := magValue_lowBits_of_real_pos hfc
  obtain ⟨hj, hfsR⟩ := magValue_lowBits_of_real_pos hfs
  have hratio : rcRatio Real.pi (real fc : ℚ) (real fs : ℚ) =
      rcRatio Real.pi (magValue (lowBits fc)) (magValue (lowBits fs)) := by
    rw [hfcR, hfsR, rcRatio_div _ _ _ (by positivity)]
  refine strictlyNearest_of_midpoints (signBit_coefRomFinite fc hfs) hpos (lt_of_le_of_ne ?above (hnotmid _))
    (fun p hp => lt_of_le_of_ne ?below (hnotmid p).symm) hne
  case above =>
    rw [hlow, hratio]
    exact rcRatio_le_midpoint_romPattern hi hj
  case below =>
    rw [hratio]
    exact midpoint_le_rcRatio_of_romPattern hi hj (hlow ▸ hp)

theorem coefRomFinite_nearestEven : NearestEven (coefRomFinite fc fs) (rcRatio Real.pi (real fc : ℚ) (real fs : ℚ)) :=
  nearestEven_of_strictlyNearest (isFinite_coefRomFinite fc hfs) fun _ => coefRomFinite_strictlyNearest hfc hfs

theorem coefRomFinite_le_one : real (coefRomFinite fc fs) ≤ 1 := by
  have hone : real one32 = 1 := by decide +kernel
  rw [← hone]
  refine (coefRomFinite_nearestEven hfc hfs).le_real (by decide) ?_
  rw [hone, Rat.cast_one]
  exact (rcRatio_lt_one Real.pi_pos (Rat.cast_pos.2 hfc) (Rat.cast_pos.2 hfs)).le

end

/-! ### The bounds of R102 -/

/-- Every finite value is below 2^128. -/
theorem real_lt_of_finite {w : Word} (h : isFinite w = true) : real w < 2 ^ 128 := by
  have hlt := magValue_strictMono ((isFinite_iff w).1 h)
  rw [(by decide : magValue 0x7F800000 = 2 ^ 128 * 2 ^ 149)] at hlt
  have hunits : units w < 2 ^ 128 * 2 ^ 149 := by rw [units_eq]; split <;> omega
  rw [real, div_lt_iff₀ (by positivity)]
  exact_mod_cast hunits

/-- A ratio of clamped operands is no less than the least binary32 value above zero. -/
theorem minSubnormal_le_rcRatio {f r : ℝ} (hf : 1 ≤ f) (hf' : f < 2 ^ 128) (hr : 1000 ≤ r) :
    1 / 2 ^ 149 ≤ rcRatio Real.pi f r := by
  have hpi := Real.pi_lt_four
  have hpos := Real.pi_pos
  have hprod : Real.pi * f ≤ 4 * 2 ^ 128 := mul_le_mul hpi.le hf'.le (by linarith) (by norm_num)
  rw [rcRatio, div_le_div_iff₀ (by positivity) (by positivity)]
  linarith

theorem coefRomFinite_pos {fc fs : Word} (hc : isFinite fc = true) (hfc : 1 ≤ real fc) (hfs : 1000 ≤ real fs) :
    0 < real (coefRomFinite fc fs) := by
  have hmin : real 0x00000001#32 = 1 / 2 ^ 149 := by decide +kernel
  have hnear := coefRomFinite_nearestEven (by linarith : 0 < real fc) (by linarith : 0 < real fs)
  have hle : real 0x00000001#32 ≤ real (coefRomFinite fc fs) := by
    refine hnear.real_le (by decide) ?_
    rw [hmin]
    push_cast
    exact minSubnormal_le_rcRatio (by exact_mod_cast hfc) (by exact_mod_cast real_lt_of_finite hc)
      (by exact_mod_cast hfs)
  exact lt_of_lt_of_le (by rw [hmin]; positivity) hle

theorem one_le_clampCutoff {fc : Word} (h : isFinite (clampCutoff fc) = true) : 1 ≤ real (clampCutoff fc) := by
  rcases clampCutoff_cases fc with hnan | hinf | ⟨-, hle⟩
  · simp [isNaN_of_finite h] at hnan
  · rw [hinf] at h; exact absurd h (by decide)
  · exact hle

theorem thousand_le_clampRate {fs : Word} (h : isFinite (clampRate fs) = true) : 1000 ≤ real (clampRate fs) := by
  rcases clampRate_cases fs with hnan | hinf | ⟨-, hle⟩
  · simp [isNaN_of_finite h] at hnan
  · rw [hinf] at h; exact absurd h (by decide)
  · exact hle

/-- The form of the spec's source: RC / (RC + dt) with RC = 1 / (2 π fc) and dt = 1 / fs. -/
theorem rcRatio_eq_rc_dt {c fc fs : ℝ} (hc : 0 < c) (hfc : 0 < fc) (hfs : 0 < fs) :
    rcRatio c fc fs = (1 / (2 * c * fc)) / (1 / (2 * c * fc) + 1 / fs) := by
  rw [rcRatio]
  field_simp

/-- Settles O39: the clamped operands are positive, so the ROM's value is the nearest one to the ratio with the number π, and
the bounds of the ratio, which are binary32 values, bound its rounding. -/
theorem romValueIsCorrectlyRounded : Obligations.RomValueIsCorrectlyRounded := by
  rintro fc fs f r hc hs rfl rfl
  have hfc := one_le_clampCutoff hc
  have hfs := thousand_le_clampRate hs
  have hfc0 : 0 < real (clampCutoff fc) := by linarith
  have hfs0 : 0 < real (clampRate fs) := by linarith
  have hfcR : (0 : ℝ) < (real (clampCutoff fc) : ℚ) := by exact_mod_cast hfc0
  have hfsR : (0 : ℝ) < (real (clampRate fs) : ℚ) := by exact_mod_cast hfs0
  rw [coefRom, coefRomClamped_finite hc hs]
  exact ⟨coefRomFinite_nearestEven hfc0 hfs0, signBit_coefRomFinite _ hfs0, coefRomFinite_pos hc hfc hfs,
    coefRomFinite_le_one hfc0 hfs0, by decide, by exact_mod_cast hfc, by exact_mod_cast hfs,
    rcRatio_pos Real.pi_pos hfcR hfsR, rcRatio_lt_one Real.pi_pos hfcR hfsR, rcRatio_eq_rc_dt Real.pi_pos hfcR hfsR⟩

end Sys2Proof.Machine
end

section
/-! The filter core's commands: RESET (R126) and PROCF (R121, R124). -/

namespace Sys2Proof.Machine

/-- The rest of the instructions run from the state in which the first one ends (R230). -/
theorem execAll_cons_of_next {i : Instr} {s t : State} (h : exec i s = .next t) (is : List Instr) :
    execAll (i :: is) s = execAll is t := by
  rw [execAll, h]

/-! ### RESET -/

theorem decode_reset (a b : Word) : decode ⟨0x00000002#32, a, b⟩ = .ok .reset := by
  simpa using (decodeIsTheOpcodeMap 0x00000002#32 a b).2 (by decide)

/-- RESET writes +0.0 to both history registers and answers (OK, 0), and leaves every other field (R126). -/
theorem exec_reset (s : State) :
    exec .reset s =
      .next { s with prevIn := 0#32, prevOut := 0#32, responses := s.responses ++ [⟨.ok, 0#32⟩] } := rfl

/-- A second RESET leaves the registers as the first one left them (R126). -/
theorem execAll_reset_idempotent (s : State) :
    ∃ t u, execAll [.reset] s = .next t ∧ execAll [.reset, .reset] s = .next u ∧
      (t.coef, t.prevIn, t.prevOut) = (u.coef, u.prevIn, u.prevOut) := by
  have hrun (is : List Instr) (s : State) := execAll_cons_of_next (exec_reset s) is
  exact ⟨_, _, hrun [] s, (hrun [.reset] s).trans (hrun [] _), rfl⟩

/-- Settles O18: the equation of RESET holds from every state, and the worked example is one of them. -/
theorem resetCommandCompletes : Obligations.ResetCommandCompletes :=
  ⟨decode_reset, exec_reset, execAll_reset_idempotent, fun s _ _ => ⟨_, exec_reset s, rfl, rfl, rfl⟩⟩

/-! ### PROCF -/

theorem decode_procf (a b : Word) : decode ⟨0x00000003#32, a, b⟩ = .ok (.procf a) := by
  simpa using (decodeIsTheOpcodeMap 0x00000003#32 a b).2 (by decide)

/-- PROCF puts x and the recurrence's y in the history registers and answers (OK, y), with y computed from the state at
entry, and leaves every other field (R121, R124). -/
theorem exec_procf (x : Word) (s : State) :
    exec (.procf x) s =
      .next { s with
        prevIn := x, prevOut := recurrence x s, responses := s.responses ++ [⟨.ok, recurrence x s⟩] } := rfl

/-- 1000.0 as the first sample after reset gives 991.52392578125, the worked example of R124. -/
theorem recurrence_1000_reset : recurrence 0x447A0000#32 State.reset = 0x4477E188#32 := by decide

/-- Settles O19: t1, t2 and y are the three steps of the recurrence, and the worked example is its value on the state after
reset. -/
theorem procfCompletes : Obligations.ProcfCompletes := by
  refine ⟨decode_procf, ?equation, ?worked⟩
  case equation =>
    rintro s x t1 t2 y rfl rfl rfl
    exact exec_procf x s
  case worked =>
    rw [exec_procf, recurrence_1000_reset]
    rfl

end Sys2Proof.Machine
end

section
/-! The sample conversion (R140) and the quantizer (R141-R143). -/

namespace Sys2Proof.Machine

/-! ### Conversion -/

/-- A count of units that is a multiple of 2^k and below 2^(24+k) rounds to itself: rounding takes no larger shift than k. -/
theorem magValue_roundPattern_of_dvd {n k : Nat} (hdvd : 2 ^ k ∣ n) (hlt : n < 2 ^ (24 + k)) :
    magValue (roundPattern n 1) = n := by
  have hshift : roundShift n 1 ≤ k := by
    by_contra hk
    have hle := (roundShift_bounds n 1 one_pos).2.resolve_left (by omega)
    rw [one_mul, ← Nat.pow_add] at hle
    have hpow : 2 ^ (24 + k) ≤ 2 ^ (23 + roundShift n 1) := Nat.pow_le_pow_right (by decide) (by omega)
    omega
  obtain ⟨m, hm⟩ := (Nat.pow_dvd_pow 2 hshift).trans hdvd
  rw [roundPattern_value n 1 one_pos, one_mul]
  conv_lhs => enter [1, 1]; rw [hm, Nat.mul_comm]
  rw [divNearestEven_mul _ _ (by positivity), Nat.mul_comm, ← hm]

/-- An integer of at most 24 bits has a pattern: rounding neither changes it nor takes it to infinity. -/
theorem roundMag_natCast {m : Nat} (hm : m < 2 ^ 24) :
    roundMag (2 ^ 149 * m) 1 < 0x7F800000 ∧ magValue (roundMag (2 ^ 149 * m) 1) = 2 ^ 149 * m := by
  have hfin : roundPattern (2 ^ 149 * m) 1 < 0x7F800000 := (roundPattern_finite_iff _ 1 one_pos).2 (by omega)
  rw [roundMag_eq, min_eq_left hfin.le]
  exact ⟨hfin, magValue_roundPattern_of_dvd (Nat.dvd_mul_right _ m) (by omega)⟩

theorem toInt_sample_bounds (x : Sample) : -32768 ≤ x.toInt ∧ x.toInt ≤ 32767 := by
  have hlo := BitVec.le_toInt x
  have hhi := BitVec.toInt_lt (x := x)
  omega

theorem natAbs_toInt_sample_lt (x : Sample) : x.toInt.natAbs < 2 ^ 24 := by
  have hx := toInt_sample_bounds x
  omega

theorem isFinite_i16ToF32 (x : Sample) : isFinite (i16ToF32 x) = true := by
  rw [isFinite_iff, i16ToF32, lowBits_pack _ _ (roundMag_lt _ _)]
  exact (roundMag_natCast (natAbs_toInt_sample_lt x)).1

theorem signBit_i16ToF32 (x : Sample) : signBit (i16ToF32 x) = decide (x.toInt < 0) := by
  rw [i16ToF32, signBit_pack _ _ (roundMag_lt _ _)]

theorem units_i16ToF32 (x : Sample) : units (i16ToF32 x) = 2 ^ 149 * x.toInt := by
  rw [units_eq, signBit_i16ToF32, i16ToF32, lowBits_pack _ _ (roundMag_lt _ _),
    (roundMag_natCast (natAbs_toInt_sample_lt x)).2]
  by_cases h : x.toInt < 0 <;> simp only [h, decide_true, decide_false, if_true, Bool.false_eq_true, if_false] <;> omega

theorem real_i16ToF32 (x : Sample) : real (i16ToF32 x) = x.toInt := by
  rw [real, units_i16ToF32]
  push_cast
  exact mul_div_cancel_left₀ _ (by positivity)

/-- The sample 0 has no sign, so the conversion never gives -0.0 (R140). -/
theorem i16ToF32_ne_negZero (x : Sample) : i16ToF32 x ≠ 0x80000000#32 := by
  intro h
  have hunits := units_i16ToF32 x
  have hsign := signBit_i16ToF32 x
  rw [h, show units 0x80000000#32 = 0 by decide] at hunits
  rw [h, show signBit 0x80000000#32 = true by decide] at hsign
  have hneg := of_decide_eq_true hsign.symm
  omega

/-- Settles O34: an int16 has at most 24 bits, so rounding is exact, and its sign bit is the sign of the integer. -/
theorem sampleConversionIsExact : Obligations.SampleConversionIsExact := by
  intro x
  obtain ⟨hlo, hhi⟩ := toInt_sample_bounds x
  rw [real_i16ToF32]
  exact ⟨isFinite_i16ToF32 x, rfl, by exact_mod_cast hlo, by exact_mod_cast hhi, i16ToF32_ne_negZero x⟩

/-! ### Truncation and the clamp -/

theorem truncRat_intCast (n : Int) : truncRat n = n := by
  simp [truncRat]

/-- Truncation is monotone, as R142 says: floor and ceiling are, and zero separates them. -/
theorem truncRat_monotone : Monotone truncRat := by
  intro a b hab
  unfold truncRat
  split <;> split
  · exact Int.floor_le_floor hab
  · linarith
  · exact (Int.ceil_le.2 (by push_cast; linarith)).trans (Int.floor_nonneg.2 ‹0 ≤ b›)
  · exact Int.ceil_le_ceil hab

theorem intCast_le_real_iff (n : Int) (w : Word) : (n : ℚ) ≤ real w ↔ n * 2 ^ 149 ≤ units w := by
  rw [real, le_div_iff₀ (by positivity)]
  exact_mod_cast Iff.rfl

theorem real_le_intCast_iff (n : Int) (w : Word) : real w ≤ n ↔ units w ≤ n * 2 ^ 149 := by
  rw [real, div_le_iff₀ (by positivity)]
  exact_mod_cast Iff.rfl

/-- On counts of units truncation is integer division toward zero (R11). -/
theorem truncRat_real (w : Word) : truncRat (real w) = truncUnits w := by
  have hreal : real w = (units w : ℚ) / ((2 ^ 149 : Nat) : ℚ) := by rw [real]; push_cast; rfl
  have hsign : 0 ≤ real w ↔ 0 ≤ units w := by simpa using intCast_le_real_iff 0 w
  simp only [truncRat, hsign, truncUnits]
  rw [hreal, Rat.floor_intCast_div_natCast, Rat.ceil_intCast_div_natCast, Nat.cast_pow, Nat.cast_ofNat]
  split
  · exact (Int.tdiv_eq_ediv_of_nonneg ‹_›).symm
  · rw [← Int.tdiv_eq_ediv_of_nonneg (by omega), Int.neg_tdiv, neg_neg]

/-- An integer in the range of the samples is the value of its sample. -/
theorem toInt_ofInt_sample {n : Int} (hlo : -32768 ≤ n) (hhi : n ≤ 32767) : (BitVec.ofInt 16 n).toInt = n :=
  BitVec.toInt_ofInt_eq_self (by decide) (by omega) (by omega)

/-- The clamp of R141 on numbers. -/
def clampToSample (r : ℚ) : ℚ := max (-32768) (min 32767 r)

theorem clampToSample_of_ge {r : ℚ} (h : 32767 ≤ r) : clampToSample r = (32767 : Int) := by
  rw [clampToSample, min_eq_left h, max_eq_right (by norm_num)]
  norm_num

theorem clampToSample_of_le {r : ℚ} (h : r ≤ -32768) : clampToSample r = (-32768 : Int) := by
  rw [clampToSample, min_eq_right (by linarith), max_eq_left h]
  norm_num

theorem clampToSample_of_mem {r : ℚ} (hlo : -32768 < r) (hhi : r < 32767) : clampToSample r = r := by
  rw [clampToSample, min_eq_right hhi.le, max_eq_right hlo.le]

theorem truncRat_bounds_of_mem {r : ℚ} (hlo : -32768 < r) (hhi : r < 32767) :
    -32768 ≤ truncRat r ∧ truncRat r ≤ 32767 := by
  rw [← truncRat_intCast (-32768), ← truncRat_intCast 32767]
  exact ⟨truncRat_monotone hlo.le, truncRat_monotone hhi.le⟩

/-- The bounds are integers and truncation is monotone, so truncating first and clamping second gives the same (R142). -/
theorem truncRat_clampToSample (r : ℚ) :
    truncRat (clampToSample r) = max (-32768) (min 32767 (truncRat r)) := by
  rw [clampToSample, truncRat_monotone.map_max, truncRat_monotone.map_min]
  exact congr_arg₂ (fun lo hi => max lo (min hi (truncRat r))) (truncRat_intCast (-32768)) (truncRat_intCast 32767)

/-- Quantize of a finite value, as R141 writes it: clamp, then truncate. -/
theorem toInt_quantizeNumber {y : Word} (hy : isFinite y = true) :
    (quantizeNumber y).toInt = truncRat (clampToSample (real y)) := by
  have hmax : (32767 : ℚ) ≤ real y ↔ qMax * 2 ^ 149 ≤ units y := intCast_le_real_iff qMax y
  have hmin : real y ≤ (-32768 : ℚ) ↔ units y ≤ qMin * 2 ^ 149 := real_le_intCast_iff qMin y
  rw [quantizeNumber, isInf_of_finite hy, if_neg Bool.false_ne_true]
  simp only [← hmax, ← hmin]
  split_ifs with hhi hlo
  · rw [clampToSample_of_ge hhi, truncRat_intCast, qMax, toInt_ofInt_sample (by decide) (by decide)]
  · rw [clampToSample_of_le hlo, truncRat_intCast, qMin, toInt_ofInt_sample (by decide) (by decide)]
  · rw [not_le] at hhi hlo
    obtain ⟨hge, hle⟩ := truncRat_bounds_of_mem hlo hhi
    rw [clampToSample_of_mem hlo hhi, ← truncRat_real, toInt_ofInt_sample hge hle]

theorem quantized_of_nan {y : Word} (h : isNaN y = true) (s : State) : quantized y s = Config.nanSample s.draws :=
  if_pos h

theorem quantized_of_number {y : Word} (h : isNaN y = false) (s : State) : quantized y s = quantizeNumber y := by
  rw [quantized, h, if_neg Bool.false_ne_true]

/-- Settles O35: at and beyond each bound the clamp gives the bound, between the bounds it changes nothing, and it commutes
with truncation. -/
theorem quantizerClampsThenTruncates : Obligations.QuantizerClampsThenTruncates := by
  intro y s
  refine ⟨fun h => quantized_of_nan h s, fun h => quantized_of_number h s, ?posInf, ?negInf, fun hy => ?finite⟩
  case posInf => rintro rfl; decide
  case negInf => rintro rfl; decide
  case finite =>
    rw [toInt_quantizeNumber hy]
    refine ⟨fun hge => ?above, fun hle => ?below, fun hlo hhi => ?between, truncRat_clampToSample _⟩
    case above => rw [clampToSample_of_ge hge, truncRat_intCast]
    case below => rw [clampToSample_of_le hle, truncRat_intCast]
    case between => rw [clampToSample_of_mem hlo hhi]

end Sys2Proof.Machine
end

section
/-! The sample path's commands: PROCS (R145) and QUANT (R146). -/

namespace Sys2Proof.Machine

/-! ### PROCS -/

theorem decode_procs (a b : Word) : decode ⟨0x00000004#32, a, b⟩ = .ok (.procs (a.extractLsb' 0 16)) := by
  simpa using (decodeIsTheOpcodeMap 0x00000004#32 a b).2 (by decide)

/-- The recurrence takes no draw, so the quantizer meets the count at entry (R143, R145). -/
theorem pathSample_eq_quantized (x : Sample) (s : State) :
    pathSample x s = quantized (recurrence (i16ToF32 x) s) s := by
  rw [pathSample, quantized, processSample_draws, quantized]

/-- PROCS puts the converted sample and the unquantized y in the history registers and answers with the quantized y, taking
a draw exactly when y is a NaN, and leaves every other field (R145). -/
theorem exec_procs (x : Sample) (s : State) :
    exec (.procs x) s = .next { s with
      prevIn := i16ToF32 x
      prevOut := recurrence (i16ToF32 x) s
      draws := if isNaN (recurrence (i16ToF32 x) s) then s.draws + 1 else s.draws
      responses := s.responses ++ [⟨.ok, (quantized (recurrence (i16ToF32 x) s) s).signExtend 32⟩] } := by
  rw [← pathSample_eq_quantized]
  rfl

/-- The worked example of R145: 1000 as the first sample after reset gives 991. -/
theorem observation_procs_1000 : observation (exec (.procs 1000#16) State.reset) =
    some (0x3F7DD483#32, 0x447A0000#32, 0x4477E188#32, [⟨.ok, 0x000003DF#32⟩]) := by decide

/-- The largest sample, then at COEF = 1.0 the smallest one, whose y is below the range of the samples (R145). -/
theorem observation_procs_saturates :
    observation (execAll [.procs 0x7FFF#16, .config 0x42700000#32 0x7F800000#32, .procs 0x8000#16] State.reset) =
      some (0x3F800000#32, 0xC7000000#32, 0xC70115BC#32,
        [⟨.ok, 0x00007EE9#32⟩, ⟨.ok, 0x00000000#32⟩, ⟨.ok, 0xFFFF8000#32⟩]) := by decide

/-- Settles O20: the equation of PROCS with the recurrence and the quantizer, the NaN law of the recurrence, and the
examples. -/
theorem procsCompletes : Obligations.ProcsCompletes := by
  refine ⟨decode_procs, ?equation, ?nan, by decide, by decide, fun b => ⟨decode_procs _ b, decode_procs _ b⟩,
    observation_procs_saturates, observation_procs_1000⟩
  case equation =>
    rintro s x y rfl
    exact exec_procs x s
  case nan =>
    intro s x h
    have hy := recurrence_of_nan (i16ToF32 x) s (by tauto)
    rw [recurrence] at hy
    rw [hy, isNaN_canonicalNaN]

/-! ### QUANT -/

theorem decode_quant (a b : Word) : decode ⟨0x00000005#32, a, b⟩ = .ok (.quant a) := by
  simpa using (decodeIsTheOpcodeMap 0x00000005#32 a b).2 (by decide)

/-- QUANT answers with the quantized operand and leaves every field but the count of draws (R146). -/
theorem exec_quant (y : Word) (s : State) :
    exec (.quant y) s = .next (respond .ok ((quantized y s).signExtend 32) (takeDraw y s)) := rfl

/-- Settles O21: a number takes no draw and a NaN takes one, and the rows of R144 are evaluated. -/
theorem quantCompletes : Obligations.QuantCompletes := by
  refine ⟨decode_quant, fun s y hy => ?number, fun s y hy => ?nan, by decide, by decide, by decide, by decide⟩
  case number => rw [exec_quant, takeDraw_of_number y s hy, quantized_of_number hy, respond]
  case nan => rw [exec_quant, takeDraw_of_nan y s hy, quantized_of_nan hy, respond]

end Sys2Proof.Machine
end

section
/-! PROCB, the block processor (R160-R170). -/

namespace Sys2Proof.Machine

theorem decode_procb (a b : Word) : decode ⟨0x00000006#32, a, b⟩ = .ok .procb := by
  simpa using (decodeIsTheOpcodeMap 0x00000006#32 a b).2 (by decide)

/-! ### The branches of PROCB -/

/-- With no input block PROCB only acquires and answers NO_INPUT (R161). -/
theorem exec_procb_of_noInput {s : State} (hacq : s.answers.acquire = none) :
    exec .procb s = .next (respond .ok (codeResult (outcomeCode .noInput)) (hostAcquire s)) := by
  rw [exec, execProcb, acquireAnswer, hacq]

/-- With an input block of the length that R166 asks for, PROCB goes on to allocate (R162, R163). -/
theorem exec_procb_of_input {s : State} {blk : InBlock} (hacq : s.answers.acquire = some blk)
    (hlen : blk.samples.length = Config.blockLen) : exec .procb s = allocateAndProcess blk (hostAcquire s) := by
  have hduty : blk.dutyMet = true := decide_eq_true hlen
  rw [exec, execProcb, acquireAnswer, hacq]
  exact if_pos hduty

/-- With no output block it releases the input and answers NO_OUTPUT (R162). -/
theorem exec_procb_of_noOutput {s : State} {blk : InBlock} (hacq : s.answers.acquire = some blk)
    (hlen : blk.samples.length = Config.blockLen) (hall : s.answers.allocate = none) :
    exec .procb s = .next (respond .ok (codeResult (outcomeCode .noOutput))
      (hostRelease blk (hostAllocate (hostAcquire s)))) := by
  rw [exec_procb_of_input hacq hlen, allocateAndProcess, allocateAnswer, hostAcquire_eq_record, record_answers, hall]

/-- With an output block of enough slots it processes the whole block (R163). -/
theorem exec_procb_of_output {s : State} {blk : InBlock} {h : OutHandle} (hacq : s.answers.acquire = some blk)
    (hlen : blk.samples.length = Config.blockLen) (hall : s.answers.allocate = some h)
    (hslots : Config.blockLen ≤ h.slots) :
    exec .procb s = .next (processBlock blk h (hostAllocate (hostAcquire s))) := by
  have hduty : h.dutyMet = true := decide_eq_true hslots
  rw [exec_procb_of_input hacq hlen, allocateAndProcess, allocateAnswer, hostAcquire_eq_record, record_answers, hall]
  exact if_pos hduty

/-- Settles O22: that branch records the one acquire and answers, and touches nothing else. -/
theorem procbSkipsWithoutInput : Obligations.ProcbSkipsWithoutInput := by
  refine ⟨decode_procb, fun s hacq => ?_⟩
  rw [exec_procb_of_noInput hacq, hostAcquire, acquireAnswer, hacq]
  rfl

/-- Settles O23: the branch makes its three calls in order and answers, and touches nothing else. -/
theorem procbSkipsWithoutOutput : Obligations.ProcbSkipsWithoutOutput := by
  intro s blk hacq hlen hall
  rw [exec_procb_of_noOutput hacq hlen hall]
  simp [record, respond, acquireAnswer, allocateAnswer, hacq, hall, codeResult, outcomeCode]

/-! ### The block loop and one PROCS per sample -/

/-- The same registers and the same count of draws: what the sample path reads and writes of a state (R145). -/
structure SamePath (s t : State) : Prop where
  coef : s.coef = t.coef
  prevIn : s.prevIn = t.prevIn
  prevOut : s.prevOut = t.prevOut
  draws : s.draws = t.draws

/-- One sample of a block and PROCS of that sample write the same registers and take the same draws (R145, R163). -/
theorem blockSample_samePath_procs {s t : State} (hst : SamePath s t) (blk : InBlock) (h : OutHandle)
    (i : Nat) (x : Sample) (r : Word) : SamePath (blockSample blk h i x s) (respond .ok r (pathState x t)) where
  coef := by simpa using hst.coef
  prevIn := by simp
  prevOut := by simpa using recurrence_congr _ hst.coef hst.prevIn hst.prevOut
  draws := by simpa using pathState_draws_congr x hst.coef hst.prevIn hst.prevOut hst.draws

/-- The response of PROCS for the sample `q` (R66, R145). -/
def procsResponse (q : Sample) : Response := ⟨.ok, sampleResult q⟩

/-- PROCS is one sample of the path, answered (R145). -/
theorem exec_procs_eq_pathState (x : Sample) (s : State) :
    exec (.procs x) s = .next (respond .ok (sampleResult (pathSample x s)) (pathState x s)) := rfl

/-- The loop over a block simulates one PROCS per sample: from states that agree on the registers and the draws they end so,
the responses of the PROCS are the samples the loop writes, and PROCS records no event (R168). -/
theorem execAll_procs_samePath (blk : InBlock) (h : OutHandle) (xs : List Sample) :
    ∀ (i : Nat) (s t : State), SamePath s t → ∃ u, execAll (xs.map .procs) t = .next u ∧
      SamePath (blockState blk h i xs s) u ∧
      u.responses = t.responses ++ (blockOutput blk h i xs s).map procsResponse ∧ u.trace = t.trace := by
  induction xs with
  | nil => exact fun i s t hst => ⟨t, rfl, hst, (List.append_nil _).symm, rfl⟩
  | cons x xs ih =>
    intro i s t hst
    have hout : pathSample x (inRead blk i x s) = pathSample x t :=
      pathSample_congr x hst.coef hst.prevIn hst.prevOut hst.draws
    obtain ⟨u, hrun, hsame, hresp, htrace⟩ :=
      ih (i + 1) _ _ (blockSample_samePath_procs hst blk h i x (sampleResult (pathSample x t)))
    refine ⟨u, (execAll_cons_of_next (exec_procs_eq_pathState x t) _).trans hrun, hsame, ?responses, ?trace⟩
    case responses =>
      rw [hresp, blockOutput, hout]
      simp [procsResponse]
    case trace => simpa using htrace

/-- Settles O24: PROCB runs the block loop from the state after its two calls, which agrees with the state at entry on the
registers and the draws, so the loop simulates the PROCS from there. -/
theorem procbIsOneProcsPerSample : Obligations.ProcbIsOneProcsPerSample := by
  intro s blk h hacq hall hlen hslots
  have hsame : SamePath (hostAllocate (hostAcquire s)) s := ⟨rfl, rfl, rfl, rfl⟩
  obtain ⟨u, hrun, hend, hresp, htrace⟩ := execAll_procs_samePath blk h blk.samples 0 _ s hsame
  refine ⟨_, u, blockOutput blk h 0 blk.samples (hostAllocate (hostAcquire s)),
    exec_procb_of_output hacq hlen hall hslots, hrun, ?coef, ?prevIn, ?prevOut, ?draws, ?length, hresp, ?response,
    ?trace, htrace, ?inputs, ?answers⟩
  case coef => simp
  case prevIn => rw [processBlock_prevIn, hend.prevIn]
  case prevOut => rw [processBlock_prevOut, hend.prevOut]
  case draws => rw [processBlock_draws, hend.draws]
  case length => rw [blockOutput_length, hlen]
  case response => simp
  case trace => simp [acquireAnswer, allocateAnswer, hacq, hall]
  case inputs => simp
  case answers => simp

end Sys2Proof.Machine
end

section
/-! The control commands: NOP (R180) and the three read-backs (R181-R184). -/

namespace Sys2Proof.Machine

/-! ### NOP -/

theorem decode_nop (a b : Word) : decode ⟨0x00000000#32, a, b⟩ = .ok .nop := by
  simpa using (decodeIsTheOpcodeMap 0x00000000#32 a b).2 (by decide)

/-- NOP answers (OK, 0) and leaves every other field (R180). -/
theorem exec_nop (s : State) : exec .nop s = .next { s with responses := s.responses ++ [⟨.ok, 0#32⟩] } := rfl

/-- Settles O15: the decoder's row for NOP, its branch for reserved bits, and the equation of NOP. -/
theorem nopCompletes : Obligations.NopCompletes :=
  ⟨decode_nop, fun cmd a b hrsv => decode_reservedBits (c := ⟨cmd, a, b⟩) hrsv, exec_nop⟩

/-! ### The read-backs -/

theorem decode_rdcoef (a b : Word) : decode ⟨0x00000007#32, a, b⟩ = .ok .rdcoef := by
  simpa using (decodeIsTheOpcodeMap 0x00000007#32 a b).2 (by decide)

theorem decode_rdpin (a b : Word) : decode ⟨0x00000008#32, a, b⟩ = .ok .rdpin := by
  simpa using (decodeIsTheOpcodeMap 0x00000008#32 a b).2 (by decide)

theorem decode_rdpout (a b : Word) : decode ⟨0x00000009#32, a, b⟩ = .ok .rdpout := by
  simpa using (decodeIsTheOpcodeMap 0x00000009#32 a b).2 (by decide)

/-- RDCOEF answers with COEF's pattern and leaves every other field (R182). -/
theorem exec_rdcoef (s : State) : exec .rdcoef s = .next (respond .ok s.coef s) := rfl

/-- RDPIN answers with PREV_IN's pattern and leaves every other field (R183). -/
theorem exec_rdpin (s : State) : exec .rdpin s = .next (respond .ok s.prevIn s) := rfl

/-- RDPOUT answers with PREV_OUT's pattern and leaves every other field (R184). -/
theorem exec_rdpout (s : State) : exec .rdpout s = .next (respond .ok s.prevOut s) := rfl

/-! ### A read-back at the end of a run -/

/-- A run continues from the state in which its first part ends (R230). -/
theorem execAll_append_of_next {is : List Instr} {s t : State} (h : execAll is s = .next t) (js : List Instr) :
    execAll (is ++ js) s = execAll js t := by
  induction is generalizing s with
  | nil => cases h; rfl
  | cons i is ih =>
    rw [execAll] at h
    cases hi : exec i s with
    | next u =>
      rw [hi] at h
      rw [List.cons_append, execAll_cons_of_next hi, ih h]
    | fault r => rw [hi] at h; cases h
    | refused r => rw [hi] at h; cases h

/-- RDPOUT at the end of a run leaves the registers that R230 observes and adds PREV_OUT's pattern to the responses. -/
theorem observation_execAll_append_rdpout {is : List Instr} {s : State} {coef prevIn prevOut : Word}
    {rs : List Response} (h : observation (execAll is s) = some (coef, prevIn, prevOut, rs)) :
    observation (execAll (is ++ [.rdpout]) s) = some (coef, prevIn, prevOut, rs ++ [⟨.ok, prevOut⟩]) := by
  cases ht : execAll is s with
  | next t =>
    rw [ht] at h
    cases h
    rw [execAll_append_of_next ht, execAll_cons_of_next (exec_rdpout t)]
    rfl
  | fault r => rw [ht] at h; cases h
  | refused r => rw [ht] at h; cases h

/-- A command that only answers, run after one other, adds its response to that one's. -/
theorem execAll_pair_responses {i j : Instr} {s t : State} {first : Response} {r : Word} (hi : exec i s = .next t)
    (hfirst : t.responses = s.responses ++ [first]) (hj : exec j t = .next (respond .ok r t)) :
    ∃ u, execAll [i, j] s = .next u ∧ u.responses = s.responses ++ [first, ⟨.ok, r⟩] := by
  refine ⟨respond .ok r t, ?run, ?responses⟩
  case run => rw [execAll_cons_of_next hi, execAll_cons_of_next hj, execAll]
  case responses => rw [respond_responses, hfirst, List.append_assoc, List.singleton_append]

/-- RDCOEF after CONFIG answers with the ROM's value (R104, R182). -/
theorem execAll_config_rdcoef (fc fs : Word) (s : State) :
    ∃ t, execAll [.config fc fs, .rdcoef] s = .next t ∧
      t.responses = s.responses ++ [⟨.ok, 0#32⟩, ⟨.ok, coefRom fc fs⟩] :=
  execAll_pair_responses (exec_config fc fs s) rfl (exec_rdcoef _)

/-- RDPIN after PROCF answers with PROCF's operand, whatever its pattern (R124, R183). -/
theorem execAll_procf_rdpin (x : Word) (s : State) :
    ∃ t, execAll [.procf x, .rdpin] s = .next t ∧
      t.responses = s.responses ++ [⟨.ok, recurrence x s⟩, ⟨.ok, x⟩] :=
  execAll_pair_responses (exec_procf x s) rfl (exec_rdpin _)

/-- RDPIN after PROCS answers with the converted sample (R145, R183). -/
theorem execAll_procs_rdpin (x : Sample) (s : State) :
    ∃ t, execAll [.procs x, .rdpin] s = .next t ∧
      t.responses = s.responses ++
        [⟨.ok, (quantized (recurrence (i16ToF32 x) s) s).signExtend 32⟩, ⟨.ok, i16ToF32 x⟩] :=
  execAll_pair_responses (exec_procs x s) rfl (exec_rdpin _)

/-! ### The ROM's values in the corner cases of R182 -/

/-- The clamps keep a NaN, and so a NaN operand of the ROM gives the NaN 0x7FC00000 (R103). -/
theorem coefRom_of_nan {fc fs : Word} (h : isNaN fc = true ∨ isNaN fs = true) : coefRom fc fs = 0x7FC00000#32 := by
  refine coefRomClamped_of_nan (h.imp (fun hc => ?cutoff) fun hs => ?rate)
  case cutoff => rwa [clampCutoff_eq_clampBelow, clampBelow_of_nan hc]
  case rate => rwa [clampRate_eq_clampBelow, clampBelow_of_nan hs]

theorem isFinite_clampRate {fs : Word} (h : isFinite fs = true) : isFinite (clampRate fs) = true := by
  rw [clampRate_eq_clampBelow, clampBelow_of_finite isFinite_fsMin h]
  split
  · exact isFinite_fsFallback
  · exact h

/-- An infinite cutoff at a finite rate, in range or not, gives +0.0 (R103). -/
theorem coefRom_inf_finite {fs : Word} (h : isFinite fs = true) : coefRom 0x7F800000#32 fs = 0x00000000#32 := by
  rw [coefRom, clampCutoff_eq_clampBelow, clampBelow_posInf isFinite_fcMin]
  exact coefRomClamped_inf_finite (isFinite_clampRate h)

/-- Settles O16: the equation of each read-back; CONFIG, PROCF or PROCS followed by one from any state, with the ROM's values
in the corner cases; and RDPOUT at the end of the worked runs of PROCS. -/
theorem readBacksComplete : Obligations.ReadBacksComplete := by
  refine ⟨fun a b => ⟨decode_rdcoef a b, decode_rdpin a b, decode_rdpout a b⟩,
    fun s => ⟨exec_rdcoef s, exec_rdpin s, exec_rdpout s⟩, rfl, fun s fc fs h => ?nan, fun s fs h => ?infinite,
    fun s => ?negativeZero, fun s => ?sample, ?firstSample, ?saturated⟩
  case nan =>
    rw [← coefRom_of_nan h]
    exact execAll_config_rdcoef fc fs s
  case infinite =>
    have hrun := execAll_config_rdcoef 0x7F800000#32 fs s
    rwa [coefRom_inf_finite h] at hrun
  case negativeZero =>
    obtain ⟨t, ht, hresp⟩ := execAll_procf_rdpin 0x80000000#32 s
    exact ⟨t, _, ht, hresp⟩
  case sample =>
    have hconvert : i16ToF32 1000#16 = 0x447A0000#32 := by decide
    obtain ⟨t, ht, hresp⟩ := execAll_procs_rdpin 1000#16 s
    rw [hconvert] at hresp
    exact ⟨t, _, ht, hresp⟩
  case firstSample => exact observation_execAll_append_rdpout (is := [.procs 1000#16]) observation_procs_1000
  case saturated => exact observation_execAll_append_rdpout observation_procs_saturates

end Sys2Proof.Machine
end

section
/-! A reset asserted during a command (R223). -/

namespace Sys2Proof.Machine

/-- A stop of `fetch` is a refusal of the step: no instruction runs and no next state is given. -/
theorem step_of_fetch_stop {s : State} {r : Refusal} (h : fetch s = .stop r) : step s = .refused r := by
  rw [step, h]

theorem fetch_resetDuring {s : State} {c : Command} {rest : List HostInput} (h : s.inputs = .resetDuring c :: rest) :
    fetch s = .stop .resetDuringCommand := by
  rw [fetch, h]

/-- Settles O12: `fetch` stops at such an entry, whatever the command in progress and the state are. -/
theorem resetDuringCommandRefused : Obligations.ResetDuringCommandRefused := by
  intro s c rest h
  exact step_of_fetch_stop (fetch_resetDuring h)

end Sys2Proof.Machine
end

section
/-! The encoder is inverse to the decoder (R61-R64, R69), and an assembled int16 operand is its number (R70). -/

namespace Sys2Proof.Machine

/-- The low half of a sign-extended sample is the sample (R65, R70). -/
theorem extractLsb'_signExtend (x : Sample) : (x.signExtend 32).extractLsb' 0 16 = x := by
  ext k hk
  rw [BitVec.getElem_extractLsb', Nat.zero_add, BitVec.getLsbD_signExtend]
  simp [hk, Nat.lt_trans hk]

theorem decode_encode (i : Instr) : decode (encode i) = .ok i := by
  cases i with
  | nop => exact decode_nop _ _
  | config a b => exact decode_config a b
  | reset => exact decode_reset _ _
  | procf x => exact decode_procf x _
  | procs x =>
    have hx := decode_procs (x.signExtend 32) 0#32
    rwa [extractLsb'_signExtend] at hx
  | quant y => exact decode_quant y _
  | procb => exact decode_procb _ _
  | rdcoef => exact decode_rdcoef _ _
  | rdpin => exact decode_rdpin _ _
  | rdpout => exact decode_rdpout _ _

theorem cmd_cases_of_legal {c : Command} (h : c.legal = true) :
    c.cmd = 0#32 ∨ c.cmd = 1#32 ∨ c.cmd = 2#32 ∨ c.cmd = 3#32 ∨ c.cmd = 4#32 ∨ c.cmd = 5#32 ∨ c.cmd = 6#32 ∨
      c.cmd = 7#32 ∨ c.cmd = 8#32 ∨ c.cmd = 9#32 := by
  have hle := (legal_iff_cmd_le c).1 h
  bv_omega

/-- A command that decodes has the command word of its row of the opcode map and the operands of that row (R62, R64). -/
theorem decode_ok_cases {c : Command} {i : Instr} (h : decode c = .ok i) :
    c.cmd = opcodeWord i ∧
      (i = .nop ∨ i = .config c.a c.b ∨ i = .reset ∨ i = .procf c.a ∨ i = .procs (sampleField c.a) ∨ i = .quant c.a ∨
        i = .procb ∨ i = .rdcoef ∨ i = .rdpin ∨ i = .rdpout) := by
  obtain ⟨cmd, a, b⟩ := c
  have hrow {j : Instr} (hj : decode ⟨cmd, a, b⟩ = .ok j) : i = j := Except.ok.inj (h.symm.trans hj)
  rcases cmd_cases_of_legal ((legal_iff_decode _).2 ⟨i, h⟩) with rfl | rfl | rfl | rfl | rfl | rfl | rfl | rfl | rfl | rfl
  · simp [hrow (decode_nop a b), opcodeWord]
  · simp [hrow (decode_config a b), opcodeWord]
  · simp [hrow (decode_reset a b), opcodeWord]
  · simp [hrow (decode_procf a b), opcodeWord]
  · simp [hrow (decode_procs a b), opcodeWord, sampleField]
  · simp [hrow (decode_quant a b), opcodeWord]
  · simp [hrow (decode_procb a b), opcodeWord]
  · simp [hrow (decode_rdcoef a b), opcodeWord]
  · simp [hrow (decode_rdpin a b), opcodeWord]
  · simp [hrow (decode_rdpout a b), opcodeWord]

/-- Settles O4: the encoding decodes back, so it is legal; and a command that decodes has its row's command word and gave
its operands to the instruction. -/
theorem decodeEncodeAgree : Obligations.DecodeEncodeAgree := by
  intro i
  refine ⟨decode_encode i, (legal_iff_decode _).2 ⟨i, decode_encode i⟩, fun c h => ?_⟩
  obtain ⟨hcmd, hi⟩ := decode_ok_cases h
  refine ⟨hcmd, ?_⟩
  rcases hi with rfl | rfl | rfl | rfl | rfl | rfl | rfl | rfl | rfl | rfl
  exacts [trivial, ⟨rfl, rfl⟩, trivial, rfl, (extractLsb'_signExtend _).symm, rfl, trivial, trivial, trivial, trivial]

/-- Settles O1: each row is one evaluation of the decoder. -/
theorem opcodeWordsDecode : Obligations.OpcodeWordsDecode := by
  unfold Obligations.OpcodeWordsDecode
  decide

theorem expand_procs (x : I16Literal) : (AsmLine.procs x).expand = x.toSample.map fun v => [.procs v] := by
  cases h : x.toSample <;> simp [AsmLine.expand, expandProcs, h, Except.map]

/-- Settles O6: a literal in range is the sample of its value, which sign extension keeps; another is refused. -/
theorem assembledSampleIsItsLiteral : Obligations.AssembledSampleIsItsLiteral := by
  intro v
  refine ⟨fun hlo hhi => ⟨BitVec.ofInt 16 v, ?expand, ?sample, ?operand, rfl⟩, fun hout => ?error⟩
  case expand => rw [expand_procs, I16Literal.toSample, if_pos ⟨hlo, hhi⟩, Except.map]
  case sample => exact toInt_ofInt_sample hlo hhi
  case operand =>
    rw [encode, operandA, BitVec.toInt_signExtend_of_le (by decide), toInt_ofInt_sample hlo hhi]
  case error => rw [expand_procs, I16Literal.toSample, if_neg (by omega), Except.map]

end Sys2Proof.Machine
end

section
/-! What one step does at the port (R40, R166, R212). -/

namespace Sys2Proof.Machine

/-- Settles O7: the step law of a command that decodes. -/
theorem stepRunsTheDecodedCommand : Obligations.StepRunsTheDecodedCommand :=
  step_command_ok

/-- Settles O8: the step law of an empty list. -/
theorem idleStepHoldsTheState : Obligations.IdleStepHoldsTheState :=
  step_nil

theorem fetch_overlap {s : State} {c d : Command} {rest : List HostInput} (h : s.inputs = .overlap c d :: rest) :
    fetch s = .stop .commandOverlap := by
  rw [fetch, h]

theorem fetch_changeHeldBlock {s : State} {c : Command} {rest : List HostInput}
    (h : s.inputs = .changeHeldBlock c :: rest) : fetch s = .stop .heldBlockChanged := by
  rw [fetch, h]

/-- A block of another length than BLOCK_LEN is refused (R166, I2). -/
theorem exec_procb_of_blockLength {s : State} {blk : InBlock} (hacq : s.answers.acquire = some blk)
    (hlen : blk.samples.length ≠ Config.blockLen) : exec .procb s = .refused .blockLength := by
  have hduty : ¬ blk.dutyMet = true := fun hd => hlen (of_decide_eq_true hd)
  rw [exec, execProcb, acquireAnswer, hacq]
  exact if_neg hduty

/-- A handle of too few slots is refused (R166, I2). -/
theorem exec_procb_of_outputSlots {s : State} {blk : InBlock} {h : OutHandle} (hacq : s.answers.acquire = some blk)
    (hlen : blk.samples.length = Config.blockLen) (hall : s.answers.allocate = some h)
    (hslots : h.slots < Config.blockLen) : exec .procb s = .refused .outputSlots := by
  have hduty : ¬ h.dutyMet = true := fun hd => absurd (of_decide_eq_true hd) (Nat.not_le.2 hslots)
  rw [exec_procb_of_input hacq hlen, allocateAndProcess, allocateAnswer, hostAcquire_eq_record, record_answers, hall]
  exact if_neg hduty

/-- Settles O13: the port stops at the first two breaches, and PROCB refuses the other two. -/
theorem brokenDutyRefused : Obligations.BrokenDutyRefused :=
  ⟨fun _ _ _ _ h => step_of_fetch_stop (fetch_overlap h),
    fun _ _ _ h => step_of_fetch_stop (fetch_changeHeldBlock h),
    fun _ _ => exec_procb_of_blockLength, fun _ _ _ => exec_procb_of_outputSlots⟩

end Sys2Proof.Machine
end

section
/-! What each command writes, what it reads and what it answers (the columns of 10_state.md §4, R63, R229). -/

namespace Sys2Proof.Machine

/-! ### The completions of PROCB -/

/-- PROCB completes without an input block, without an output block, or with both (R161-R163). -/
theorem exec_procb_next_cases {s t : State} (h : exec .procb s = .next t) :
    (s.answers.acquire = none ∧ t = respond .ok (codeResult (outcomeCode .noInput)) (hostAcquire s)) ∨
    (∃ blk, s.answers.acquire = some blk ∧ blk.samples.length = Config.blockLen ∧ s.answers.allocate = none ∧
      t = respond .ok (codeResult (outcomeCode .noOutput)) (hostRelease blk (hostAllocate (hostAcquire s)))) ∨
    ∃ blk out, s.answers.acquire = some blk ∧ blk.samples.length = Config.blockLen ∧ s.answers.allocate = some out ∧
      Config.blockLen ≤ out.slots ∧ t = processBlock blk out (hostAllocate (hostAcquire s)) := by
  rcases execProcb_cases s with ⟨hacq, e⟩ | ⟨blk, hacq, ⟨-, e⟩ | ⟨hlen, hall, e⟩ | ⟨out, hlen, hall, ⟨-, e⟩ | ⟨hslots, e⟩⟩⟩ <;>
    cases e.symm.trans h
  · exact .inl ⟨hacq, rfl⟩
  · exact .inr (.inl ⟨blk, hacq, of_decide_eq_true hlen, hall, rfl⟩)
  · exact .inr (.inr ⟨blk, out, hacq, of_decide_eq_true hlen, hall, of_decide_eq_true hslots, rfl⟩)

/-- The host's duties are all that PROCB needs to complete (R166, R229). -/
theorem exec_procb_completes {s : State} (h : DutiesMet s) : ∃ t, exec .procb s = .next t := by
  obtain ⟨hlen, hslots⟩ := h
  cases hacq : s.answers.acquire with
  | none => exact ⟨_, exec_procb_of_noInput hacq⟩
  | some blk =>
    cases hall : s.answers.allocate with
    | none => exact ⟨_, exec_procb_of_noOutput hacq (hlen blk hacq) hall⟩
    | some out => exact ⟨_, exec_procb_of_output hacq (hlen blk hacq) hall (hslots out hall)⟩

/-! ### The columns, one law per field -/

section
variable {i : Instr} {s t : State} (h : exec i s = .next t)
include h

theorem exec_coef (hi : ∀ a b, i ≠ .config a b) : t.coef = s.coef := by
  cases i with
  | config a b => exact absurd rfl (hi a b)
  | procb => rcases exec_procb_next_cases h with ⟨-, rfl⟩ | ⟨_, -, -, -, rfl⟩ | ⟨_, _, -, -, -, -, rfl⟩ <;> simp
  | _ => cases h; simp

theorem exec_coef_cases : t.coef = s.coef ∨ ∃ fc fs, i = .config fc fs ∧ t.coef = coefRom fc fs := by
  by_cases hc : ∃ fc fs, i = .config fc fs
  · obtain ⟨fc, fs, rfl⟩ := hc
    cases h
    exact .inr ⟨fc, fs, rfl, by simp⟩
  · simp only [not_exists] at hc
    exact .inl (exec_coef h hc)

theorem exec_history_registers (hf : ∀ x, i ≠ .procf x) (hs : ∀ x, i ≠ .procs x) (hr : i ≠ .reset)
    (hb : i = .procb → s.answers.acquire = none ∨ s.answers.allocate = none) :
    t.prevIn = s.prevIn ∧ t.prevOut = s.prevOut := by
  cases i with
  | reset => exact absurd rfl hr
  | procf x => exact absurd rfl (hf x)
  | procs x => exact absurd rfl (hs x)
  | procb =>
    rcases exec_procb_next_cases h with ⟨-, rfl⟩ | ⟨_, -, -, -, rfl⟩ | ⟨_, _, hacq, -, hall, -, rfl⟩
    · simp
    · simp
    · simp [hacq, hall] at hb
  | _ => cases h; simp

theorem exec_trace (hi : i ≠ .procb) : t.trace = s.trace := by
  cases i with
  | procb => exact absurd rfl hi
  | _ => cases h; simp

theorem exec_trace_extends : s.trace <+: t.trace := by
  by_cases hi : i = .procb
  · subst hi
    rcases exec_procb_next_cases h with ⟨-, rfl⟩ | ⟨_, -, -, -, rfl⟩ | ⟨_, _, -, -, -, -, rfl⟩ <;> simp
  · rw [exec_trace h hi]

theorem exec_draws (hs : ∀ x, i ≠ .procs x) (hq : ∀ y, i ≠ .quant y) (hb : i ≠ .procb) : t.draws = s.draws := by
  cases i with
  | procs x => exact absurd rfl (hs x)
  | quant y => exact absurd rfl (hq y)
  | procb => exact absurd rfl hb
  | _ => cases h; simp

theorem exec_le_draws : s.draws ≤ t.draws := by
  cases i with
  | procs x => cases h; exact le_pathState_draws x s
  | quant y => cases h; exact le_takeDraw_draws y s
  | procb =>
    rcases exec_procb_next_cases h with ⟨-, rfl⟩ | ⟨_, -, -, -, rfl⟩ | ⟨blk, out, -, -, -, -, rfl⟩
    · simp
    · simp
    · simpa using le_blockState_draws blk out blk.samples 0 (hostAllocate (hostAcquire s))
  | _ => cases h; simp

theorem exec_responses : ∃ r, t.responses = s.responses ++ [⟨.ok, r⟩] := by
  cases i with
  | procb =>
    rcases exec_procb_next_cases h with ⟨-, rfl⟩ | ⟨_, -, -, -, rfl⟩ | ⟨blk, out, -, -, -, -, rfl⟩
    · exact ⟨_, rfl⟩
    · exact ⟨_, rfl⟩
    · exact ⟨_, processBlock_responses blk out _⟩
  | procs x => cases h; exact ⟨sampleResult (pathSample x s), by simp⟩
  | _ => cases h; exact ⟨_, respond_responses _ _ _⟩

theorem exec_host : t.inputs = s.inputs ∧ t.answers = s.answers := by
  cases i with
  | procb => rcases exec_procb_next_cases h with ⟨-, rfl⟩ | ⟨_, -, -, -, rfl⟩ | ⟨_, _, -, -, -, -, rfl⟩ <;> simp
  | _ => cases h; simp

end

/-- Settles O26: the laws of the columns, one for each clause. -/
theorem commandsWriteOnlyTheirColumns : Obligations.CommandsWriteOnlyTheirColumns := by
  intro i s t h
  obtain ⟨hinputs, hanswers⟩ := exec_host h
  exact ⟨exec_coef h, exec_history_registers h, exec_trace h, exec_trace_extends h, exec_draws h, exec_le_draws h,
    exec_responses h, hinputs, hanswers⟩

/-! ### Completion and the response -/

/-- Every command completes, PROCB where the host keeps its duties (R229). -/
theorem exec_completes {i : Instr} {s : State} (hd : i = .procb → DutiesMet s) : ∃ t, exec i s = .next t := by
  cases i with
  | procb => exact exec_procb_completes (hd rfl)
  | _ => exact ⟨_, rfl⟩

/-- Settles O14: a legal command decodes and its execution completes with an OK response; an illegal one completes with the
response of `raiseIllegal`. -/
theorem everyCommandCompletesWithOneResponse : Obligations.EveryCommandCompletesWithOneResponse := by
  have hexec (i : Instr) (s : State) (hd : i = .procb → DutiesMet s) :
      ∃ t r, exec i s = .next t ∧ t.responses = s.responses ++ [⟨.ok, r⟩] := by
    obtain ⟨t, ht⟩ := exec_completes hd
    obtain ⟨r, hr⟩ := exec_responses ht
    exact ⟨t, r, ht, hr⟩
  refine ⟨hexec, fun s c ans rest hin hd => ?_⟩
  cases hc : decode c with
  | ok i =>
    obtain ⟨t, r, ht, hr⟩ := hexec i (latch ans rest s) fun _ => hd
    have hlegal : c.legal = true := (legal_iff_decode c).2 ⟨i, hc⟩
    exact ⟨t, _, (step_command_ok s c ans rest i hin hc).trans ht, hr, by rw [hlegal]; rfl⟩
  | error e =>
    have hillegal : ¬ c.legal = true := fun hl => by
      obtain ⟨i, hi⟩ := decode_of_legal hl
      cases hi.symm.trans hc
    exact ⟨_, _, step_command_illegal s c ans rest e hin hc, respond_responses _ _ _, by rw [if_neg hillegal]; rfl⟩

/-! ### The event history of PROCB -/

/-- The events of a PROCB that has both blocks and writes the samples `qs` (R163). -/
def doneEvents (blk : InBlock) (out : OutHandle) (qs : List Sample) : List Event :=
  [Event.acquire (some blk), Event.allocate (some out)] ++ sampleEvents blk out 0 blk.samples qs ++
    [Event.release blk, Event.deliver out qs]

theorem processBlock_trace_of_answers {s : State} {blk : InBlock} {out : OutHandle} (hacq : s.answers.acquire = some blk)
    (hall : s.answers.allocate = some out) :
    (processBlock blk out (hostAllocate (hostAcquire s))).trace =
      s.trace ++ doneEvents blk out (blockOutput blk out 0 blk.samples (hostAllocate (hostAcquire s))) := by
  simp [doneEvents, acquireAnswer, allocateAnswer, hacq, hall]

theorem filter_doneEvents (blk : InBlock) (out : OutHandle) (qs : List Sample) :
    (doneEvents blk out qs).filter Event.isHostCall =
      [.acquire (some blk), .allocate (some out), .release blk, .deliver out qs] := by
  rw [doneEvents, List.filter_append, List.filter_append, filter_sampleEvents]
  rfl

/-- Settles O25: each completion of PROCB records its host calls in order, and the block loop's events are no host calls. -/
theorem procbHistoryIsOneOfThree : Obligations.ProcbHistoryIsOneOfThree := by
  intro s t _ h
  rcases exec_procb_next_cases h with
    ⟨hacq, rfl⟩ | ⟨blk, hacq, -, hall, rfl⟩ | ⟨blk, out, hacq, -, hall, -, rfl⟩
  · exact .inl ⟨hacq, by simp [State.history, acquireAnswer, hacq, Event.isHostCall], rfl⟩
  · exact .inr (.inl ⟨blk, hacq, hall,
      by simp [State.history, acquireAnswer, allocateAnswer, hacq, hall, Event.isHostCall], rfl⟩)
  · refine .inr (.inr ⟨blk, out, blockOutput blk out 0 blk.samples (hostAllocate (hostAcquire s)), hacq, hall, ?_,
      processBlock_responses blk out _⟩)
    rw [State.history, processBlock_trace_of_answers hacq hall, List.filter_append, filter_doneEvents, State.history]

/-! ### What a command reads -/

/-- The same registers, count of draws and answers of the host: what a command can read of a state (R27, R37). -/
structure SameReads (s t : State) : Prop extends SamePath s t where
  answers : s.answers = t.answers

/-- Two commands completed alike, from `s` to `t` and from `s'` to `t'`: the same registers and draws, the same events and
the same response added. -/
structure CompleteAlike (s t s' t' : State) : Prop where
  path : SamePath t t'
  added : ∃ (events : List Event) (r : Response), t.trace = s.trace ++ events ∧ t'.trace = s'.trace ++ events ∧
    t.responses = s.responses ++ [r] ∧ t'.responses = s'.responses ++ [r]

/-- A response at the end, from states that agree and have recorded the same events. -/
theorem completeAlike_respond {s u s' u' : State} {st : Status} {r : Word} {events : List Event} (hu : SamePath u u')
    (ht : u.trace = s.trace ++ events) (ht' : u'.trace = s'.trace ++ events) (hr : u.responses = s.responses)
    (hr' : u'.responses = s'.responses) : CompleteAlike s (respond st r u) s' (respond st r u') where
  path := ⟨hu.coef, hu.prevIn, hu.prevOut, hu.draws⟩
  added := ⟨events, ⟨st, r⟩, ht, ht', by simp [hr], by simp [hr']⟩

/-- The same without an event. -/
theorem completeAlike_respond_quiet {s u s' u' : State} {st : Status} {r r' : Word} (hu : SamePath u u') (hrr : r = r')
    (ht : u.trace = s.trace) (ht' : u'.trace = s'.trace) (hr : u.responses = s.responses)
    (hr' : u'.responses = s'.responses) : CompleteAlike s (respond st r u) s' (respond st r' u') :=
  hrr ▸ completeAlike_respond hu (ht.trans (List.append_nil _).symm) (ht'.trans (List.append_nil _).symm) hr hr'

theorem exec_procb_alike {s s' t : State} (hs : SameReads s s') (h : exec .procb s = .next t) :
    ∃ t', exec .procb s' = .next t' ∧ CompleteAlike s t s' t' := by
  have hacq' : s'.answers.acquire = s.answers.acquire := by rw [hs.answers]
  have hall' : s'.answers.allocate = s.answers.allocate := by rw [hs.answers]
  have hpath : SamePath (hostAllocate (hostAcquire s)) (hostAllocate (hostAcquire s')) :=
    ⟨hs.coef, hs.prevIn, hs.prevOut, hs.draws⟩
  rcases exec_procb_next_cases h with
    ⟨hacq, rfl⟩ | ⟨blk, hacq, hlen, hall, rfl⟩ | ⟨blk, out, hacq, hlen, hall, hslots, rfl⟩
  · refine ⟨_, exec_procb_of_noInput (hacq'.trans hacq), completeAlike_respond (events := [.acquire none]) ?_ ?_ ?_ rfl rfl⟩
    · exact ⟨hs.coef, hs.prevIn, hs.prevOut, hs.draws⟩
    · simp [acquireAnswer, hacq]
    · simp [acquireAnswer, hacq', hacq]
  · refine ⟨_, exec_procb_of_noOutput (hacq'.trans hacq) hlen (hall'.trans hall),
      completeAlike_respond (events := [.acquire (some blk), .allocate none, .release blk]) ?_ ?_ ?_ rfl rfl⟩
    · exact ⟨hs.coef, hs.prevIn, hs.prevOut, hs.draws⟩
    · simp [acquireAnswer, allocateAnswer, hacq, hall]
    · simp [acquireAnswer, allocateAnswer, hacq', hacq, hall', hall]
  · obtain ⟨hout, hin, hprev, hdraws⟩ :=
      block_congr blk out blk.samples 0 _ _ hpath.coef hpath.prevIn hpath.prevOut hpath.draws
    refine ⟨_, exec_procb_of_output (hacq'.trans hacq) hlen (hall'.trans hall) hslots,
      ⟨by simpa using hs.coef, by simpa using hin, by simpa using hprev, by simpa using hdraws⟩, _, _,
      processBlock_trace_of_answers hacq hall, ?_, processBlock_responses _ _ _, processBlock_responses _ _ _⟩
    rw [hout, processBlock_trace_of_answers (hacq'.trans hacq) (hall'.trans hall)]

/-- Commands started alike complete alike (R27). -/
theorem exec_alike {i : Instr} {s s' t : State} (hs : SameReads s s') (h : exec i s = .next t) :
    ∃ t', exec i s' = .next t' ∧ CompleteAlike s t s' t' := by
  have hy (x : Word) : recurrence x s = recurrence x s' := recurrence_congr x hs.coef hs.prevIn hs.prevOut
  cases i with
  | nop => cases h; exact ⟨_, rfl, completeAlike_respond_quiet hs.toSamePath rfl rfl rfl rfl rfl⟩
  | config a b =>
    cases h
    exact ⟨_, rfl, completeAlike_respond_quiet ⟨rfl, hs.prevIn, hs.prevOut, hs.draws⟩ rfl rfl rfl rfl rfl⟩
  | reset => cases h; exact ⟨_, rfl, completeAlike_respond_quiet ⟨hs.coef, rfl, rfl, hs.draws⟩ rfl rfl rfl rfl rfl⟩
  | procf x =>
    cases h
    exact ⟨_, rfl, completeAlike_respond_quiet ⟨hs.coef, rfl, hy x, hs.draws⟩ (hy x) rfl rfl rfl rfl⟩
  | procs x =>
    rw [exec_procs_eq_pathState, Host.Outcome.next.injEq] at h
    subst h
    refine ⟨_, exec_procs_eq_pathState x s', completeAlike_respond_quiet ⟨?_, ?_, ?_, ?_⟩ ?_ ?_ ?_ ?_ ?_⟩
    · simpa using hs.coef
    · simp
    · simpa using hy _
    · exact pathState_draws_congr x hs.coef hs.prevIn hs.prevOut hs.draws
    · rw [pathSample_congr x hs.coef hs.prevIn hs.prevOut hs.draws]
    all_goals simp
  | quant y =>
    rw [exec_quant, Host.Outcome.next.injEq] at h
    subst h
    refine ⟨_, exec_quant y s', completeAlike_respond_quiet ⟨hs.coef, hs.prevIn, hs.prevOut, ?_⟩ ?_ rfl rfl rfl rfl⟩
    · rw [takeDraw_draws, takeDraw_draws, hs.draws]
    · rw [quantized, quantized, hs.draws]
  | procb => exact exec_procb_alike hs h
  | rdcoef => cases h; exact ⟨_, rfl, completeAlike_respond_quiet hs.toSamePath hs.coef rfl rfl rfl rfl⟩
  | rdpin => cases h; exact ⟨_, rfl, completeAlike_respond_quiet hs.toSamePath hs.prevIn rfl rfl rfl rfl⟩
  | rdpout => cases h; exact ⟨_, rfl, completeAlike_respond_quiet hs.toSamePath hs.prevOut rfl rfl rfl rfl⟩

/-- Settles O27: states that agree on what a command reads complete it alike. -/
theorem commandsReadOnlyTheRegisters : Obligations.CommandsReadOnlyTheRegisters := by
  intro i s s' t hcoef hin hout hans hdraws h
  obtain ⟨t', ht', hpath, events, r, hadded⟩ := exec_alike ⟨⟨hcoef, hin, hout, hdraws⟩, hans⟩ h
  exact ⟨t', events, r, ht', hpath.coef, hpath.prevIn, hpath.prevOut, hpath.draws, hadded⟩

/-! ### COEF -/

/-- Settles O28: CONFIG and the engine reset are the only writers of COEF (R34). -/
theorem coefIsAlwaysWholeRomValue : Obligations.CoefIsAlwaysWholeRomValue := by
  intro s t h
  rcases step_cases s t h with ⟨-, rfl⟩ | ⟨rest, hin, rfl⟩ | ⟨c, ans, rest, hin, ⟨e, -, rfl⟩ | ⟨i, hi, hexec⟩⟩
  · exact .inl rfl
  · exact .inr (.inl ⟨rest, hin, engineReset_coef _⟩)
  · exact .inl (by simp)
  · rcases exec_coef_cases hexec with hkept | ⟨fc, fs, rfl, hrom⟩
    · exact .inl (hkept.trans (latch_coef ans rest s))
    · exact .inr (.inr ⟨c, ans, rest, fc, fs, hin, hi, hrom⟩)

end Sys2Proof.Machine
end

section
/-! Sums, differences and products (R11): one rounding of the exact result, and the arithmetic on NaN and infinity. -/

namespace Sys2Proof.Machine

/-! ### A signed count of units, rounded -/

/-- What a sum of finite values is: a signed count of units rounded once, a zero taking the sign `zeroSign`. -/
def roundUnits (zeroSign : Bool) (z : Int) : Word :=
  pack (if z = 0 then zeroSign else decide (z < 0)) (roundMag z.natAbs 1)

theorem add32_eq_roundUnits {a b : Word} (ha : isFinite a = true) (hb : isFinite b = true) :
    add32 a b = roundUnits (signBit a && signBit b) (units a + units b) :=
  add32_of_finite a b ha hb

theorem sub32_eq_roundUnits {a b : Word} (ha : isFinite a = true) (hb : isFinite b = true) :
    sub32 a b = roundUnits (signBit a && !signBit b) (units a - units b) := by
  rw [sub32, add32_eq_roundUnits ha ((isFinite_neg32 b).trans hb), signBit_neg32, units_neg32, sub_eq_add_neg]

/-- From the overflow bound on a magnitude rounds to infinity (R11). -/
theorem roundMag_of_overflow {n d : Nat} (hd : 0 < d) (h : (2 ^ 128 - 2 ^ 103) * 2 ^ 149 * d ≤ n) :
    roundMag n d = 0x7F800000 := by
  have hpat := mt (roundPattern_finite_iff n d hd).1 (not_lt.2 h)
  rw [roundMag_eq]
  omega

theorem overflowBound_pos : 0 < overflowBound := by
  rw [overflowBound]
  norm_num

theorem natAbs_lt_iff_abs_lt_overflowBound (z : Int) :
    z.natAbs < (2 ^ 128 - 2 ^ 103) * 2 ^ 149 * 1 ↔ |(z : ℝ) / 2 ^ 149| < overflowBound := by
  have hcast : (z.natAbs : ℝ) = |(z : ℝ)| := by rw [Nat.cast_natAbs, Int.cast_abs]
  have hbound : (((2 ^ 128 - 2 ^ 103) * 2 ^ 149 * 1 : Nat) : ℝ) = overflowBound * 2 ^ 149 := by
    rw [overflowBound]
    norm_num
  rw [abs_div, abs_of_pos (by positivity : (0 : ℝ) < 2 ^ 149), div_lt_iff₀ (by positivity), ← hcast, ← hbound,
    Nat.cast_lt]

theorem sign_mul_natAbs (zeroSign : Bool) (z : Int) :
    (if (if z = 0 then zeroSign else decide (z < 0)) then -1 else 1 : ℝ) * z.natAbs = z := by
  rcases lt_trichotomy z 0 with hz | rfl | hz
  · rw [if_neg hz.ne, decide_eq_true hz, if_pos rfl, Nat.cast_natAbs, abs_of_neg hz]
    push_cast
    ring
  · simp
  · rw [if_neg hz.ne', decide_eq_false (by omega), if_neg Bool.false_ne_true, Nat.cast_natAbs, abs_of_pos hz, one_mul]

theorem roundUnits_nearest (zeroSign : Bool) {z : Int} (h : |(z : ℝ) / 2 ^ 149| < overflowBound) :
    NearestEven (roundUnits zeroSign z) ((z : ℝ) / 2 ^ 149) := by
  have hnear := pack_roundMag_nearest (if z = 0 then zeroSign else decide (z < 0)) z.natAbs 1 one_pos
    ((natAbs_lt_iff_abs_lt_overflowBound z).2 h)
  rwa [Nat.cast_one, div_one, ← mul_div_assoc, sign_mul_natAbs] at hnear

theorem roundUnits_of_overflow (zeroSign : Bool) {z : Int} (h : overflowBound ≤ |(z : ℝ) / 2 ^ 149|) :
    roundUnits zeroSign z = pack (decide (z < 0)) 0x7F800000 := by
  have hz : z ≠ 0 := by
    rintro rfl
    have := overflowBound_pos
    simp at h
    linarith
  rw [roundUnits, if_neg hz,
    roundMag_of_overflow one_pos (not_lt.1 (mt (natAbs_lt_iff_abs_lt_overflowBound z).1 (not_lt.2 h)))]

theorem roundUnits_zero (zeroSign : Bool) : roundUnits zeroSign 0 = if zeroSign then 0x80000000#32 else 0x00000000#32 := by
  cases zeroSign <;> decide

/-- A finite value's own count of units rounds to that value. -/
theorem roundUnits_units {zeroSign : Bool} {w : Word} (hw : isFinite w = true) (hz : units w = 0 → zeroSign = signBit w) :
    roundUnits zeroSign (units w) = w := by
  have hmag : roundMag (units w).natAbs 1 = lowBits w := by
    have hfin := (isFinite_iff w).1 hw
    have hexact := roundPattern_exact (lowBits w) 1 one_pos
    rw [mul_one] at hexact
    rw [natAbs_units, magUnits_eq, roundMag_eq, hexact]
    omega
  have hsign : (if units w = 0 then zeroSign else decide (units w < 0)) = signBit w := by
    split
    · next h0 => exact hz h0
    · next hne =>
      rw [units_eq] at hne ⊢
      cases hs : signBit w <;> simp only [hs, if_true, Bool.false_eq_true, if_false] at hne ⊢
      · exact decide_eq_false (by omega)
      · exact decide_eq_true (by omega)
  rw [roundUnits, hmag, hsign, pack_self]

/-- One rounding of the number `q` of `z` units: nearest even below the overflow bound, an infinity of its sign from there
on, and a zero of the given sign (R11). -/
theorem roundUnits_roundedOnce (zeroSign : Bool) {q : ℚ} {z : Int} (hq : q = (z : ℚ) / 2 ^ 149) :
    (|(q : ℝ)| < overflowBound → NearestEven (roundUnits zeroSign z) (q : ℝ)) ∧
    (overflowBound ≤ (q : ℝ) → roundUnits zeroSign z = 0x7F800000#32) ∧
    ((q : ℝ) ≤ -overflowBound → roundUnits zeroSign z = 0xFF800000#32) ∧
    (q = 0 → roundUnits zeroSign z = if zeroSign then 0x80000000#32 else 0x00000000#32) := by
  have hqR : (q : ℝ) = (z : ℝ) / 2 ^ 149 := by rw [hq]; push_cast; rfl
  have hpow : (0 : ℝ) < 2 ^ 149 := by positivity
  have hbound := overflowBound_pos
  refine ⟨fun h => ?near, fun h => ?posInf, fun h => ?negInf, fun h => ?zero⟩
  case near =>
    rw [hqR] at h ⊢
    exact roundUnits_nearest zeroSign h
  case posInf =>
    have hz : 0 < z := by
      have hpos : 0 < (z : ℝ) / 2 ^ 149 := hqR ▸ hbound.trans_le h
      exact_mod_cast (div_pos_iff_of_pos_right hpow).1 hpos
    rw [roundUnits_of_overflow zeroSign (hqR ▸ h.trans (le_abs_self _)), decide_eq_false (by omega)]
    rfl
  case negInf =>
    have hz : z < 0 := by
      have hneg : (z : ℝ) / 2 ^ 149 < 0 := hqR ▸ h.trans_lt (neg_lt_zero.2 hbound)
      exact_mod_cast (div_lt_iff₀ hpow).1 hneg
    rw [roundUnits_of_overflow zeroSign (hqR ▸ (le_neg.1 h).trans (neg_le_abs _)), decide_eq_true hz]
    rfl
  case zero =>
    have hz : z = 0 := by
      rw [h, eq_comm, div_eq_zero_iff] at hq
      exact_mod_cast hq.resolve_right (by positivity)
    rw [hz, roundUnits_zero]

theorem real_add_real (a b : Word) : real a + real b = ((units a + units b : Int) : ℚ) / 2 ^ 149 := by
  rw [real, real, ← add_div]
  push_cast
  rfl

theorem real_sub_real (a b : Word) : real a - real b = ((units a - units b : Int) : ℚ) / 2 ^ 149 := by
  rw [real, real, ← sub_div]
  push_cast
  rfl

/-- Settles O29: a sum is its count of units rounded once. -/
theorem sumIsRoundedOnce : Obligations.SumIsRoundedOnce := by
  intro a b ha hb
  rw [add32_eq_roundUnits ha hb]
  exact roundUnits_roundedOnce _ (real_add_real a b)

/-- Settles O30: a difference is its count of units rounded once. -/
theorem differenceIsRoundedOnce : Obligations.DifferenceIsRoundedOnce := by
  intro a b ha hb
  rw [sub32_eq_roundUnits ha hb]
  exact roundUnits_roundedOnce _ (real_sub_real a b)

/-! ### Products -/

theorem units_eq_sign_mul (w : Word) : units w = (if signBit w then -1 else 1) * (magUnits w : Int) := by
  rw [units]
  split <;> simp

/-- The exact product as a sign and a quotient of units. -/
theorem real_mul_real (a b : Word) :
    ((real a * real b : ℚ) : ℝ) = (if signBit a != signBit b then -1 else 1) *
      (((magUnits a * magUnits b : Nat) : ℝ) / (2 ^ 149 : Nat) / 2 ^ 149) := by
  push_cast
  rw [real_cast, real_cast, units_eq_sign_mul, units_eq_sign_mul]
  push_cast
  cases signBit a <;> cases signBit b <;> simp <;> ring

theorem abs_real_mul_real (a b : Word) :
    |((real a * real b : ℚ) : ℝ)| = ((magUnits a * magUnits b : Nat) : ℝ) / (2 ^ 149 : Nat) / 2 ^ 149 := by
  rw [real_mul_real, abs_mul, abs_of_nonneg (by positivity : (0 : ℝ) ≤ _ / _ / _)]
  split <;> simp

theorem abs_real_mul_real_lt_overflowBound_iff (a b : Word) :
    |((real a * real b : ℚ) : ℝ)| < overflowBound ↔
      magUnits a * magUnits b < (2 ^ 128 - 2 ^ 103) * 2 ^ 149 * 2 ^ 149 := by
  have hbound : (((2 ^ 128 - 2 ^ 103) * 2 ^ 149 * 2 ^ 149 : Nat) : ℝ) = overflowBound * 2 ^ 149 * (2 ^ 149 : Nat) := by
    rw [overflowBound]
    norm_num
  rw [abs_real_mul_real, div_lt_iff₀ (by positivity), div_lt_iff₀ (by positivity), ← hbound, Nat.cast_lt]

theorem signBit_mul32 {a b : Word} (ha : isFinite a = true) (hb : isFinite b = true) :
    signBit (mul32 a b) = (signBit a != signBit b) := by
  rw [mul32_of_finite a b ha hb, signBit_pack _ _ (roundMag_lt _ _)]

theorem mul32_nearest {a b : Word} (ha : isFinite a = true) (hb : isFinite b = true)
    (h : |((real a * real b : ℚ) : ℝ)| < overflowBound) : NearestEven (mul32 a b) ((real a * real b : ℚ) : ℝ) := by
  rw [mul32_of_finite a b ha hb, real_mul_real]
  exact pack_roundMag_nearest _ _ _ (by positivity) ((abs_real_mul_real_lt_overflowBound_iff a b).1 h)

/-- Settles O31: a product is its quotient of units rounded once, with the sign of its operands' signs. -/
theorem productIsRoundedOnce : Obligations.ProductIsRoundedOnce := by
  intro a b ha hb
  refine ⟨mul32_nearest ha hb, fun h => ?overflow, signBit_mul32 ha hb⟩
  case overflow =>
    have hge := not_lt.1 (mt (abs_real_mul_real_lt_overflowBound_iff a b).2 (not_lt.2 h))
    rw [mul32_of_finite a b ha hb, isInf_iff, lowBits_pack _ _ (roundMag_lt _ _),
      roundMag_of_overflow (by positivity) hge]

end Sys2Proof.Machine
end

section
/-! Arithmetic on NaN and infinity, and the order of the values (R11; log entry 18). -/

namespace Sys2Proof.Machine

theorem isNaN_of_inf {w : Word} (h : isInf w = true) : isNaN w = false := by
  rcases isInf_cases h with rfl | rfl <;> decide

theorem isFinite_of_inf {w : Word} (h : isInf w = true) : isFinite w = false := by
  rcases isInf_cases h with rfl | rfl <;> decide

theorem real_eq_zero_iff (w : Word) : real w = 0 ↔ magUnits w = 0 := by
  rw [real, div_eq_zero_iff, Int.cast_eq_zero, ← Int.natAbs_eq_zero, natAbs_units]
  norm_num

/-! ### Sums and differences -/

theorem add32_inf_finite {a b : Word} (ha : isInf a = true) (hb : isFinite b = true) : add32 a b = a := by
  simp [add32, ha, isNaN_of_inf ha, isNaN_of_finite hb, isInf_of_finite hb]

theorem add32_finite_inf {a b : Word} (ha : isFinite a = true) (hb : isInf b = true) : add32 a b = b := by
  simp [add32, hb, isNaN_of_inf hb, isNaN_of_finite ha, isInf_of_finite ha]

theorem add32_inf_inf {a b : Word} (ha : isInf a = true) (hb : isInf b = true) :
    add32 a b = if signBit a = signBit b then a else canonicalNaN := by
  simp only [add32, ha, hb, isNaN_of_inf ha, isNaN_of_inf hb]
  cases signBit a <;> cases signBit b <;> rfl

theorem sub32_inf_finite {a b : Word} (ha : isInf a = true) (hb : isFinite b = true) : sub32 a b = a :=
  add32_inf_finite ha ((isFinite_neg32 b).trans hb)

theorem sub32_finite_inf {a b : Word} (ha : isFinite a = true) (hb : isInf b = true) : sub32 a b = neg32 b :=
  add32_finite_inf ha ((isInf_neg32 b).trans hb)

theorem sub32_inf_inf {a b : Word} (ha : isInf a = true) (hb : isInf b = true) :
    sub32 a b = if signBit a = signBit b then canonicalNaN else a := by
  rw [sub32, add32_inf_inf ha ((isInf_neg32 b).trans hb), signBit_neg32]
  cases signBit a <;> cases signBit b <;> rfl

/-! ### Products -/

theorem mul32_inf_zero {a b : Word} (ha : isInf a = true) (hb : isFinite b = true) (h0 : real b = 0) :
    mul32 a b = canonicalNaN ∧ mul32 b a = canonicalNaN := by
  have hmag := (real_eq_zero_iff b).1 h0
  simp [mul32, ha, hb, hmag, isNaN_of_inf ha, isNaN_of_finite hb, isInf_of_finite hb]

/-- An infinity times what is neither a NaN nor a zero is an infinity, in either order. -/
theorem mul32_inf {a b : Word} (ha : isInf a = true) (hb : isNaN b = false)
    (h0 : ¬(isFinite b = true ∧ real b = 0)) :
    mul32 a b = pack (signBit a != signBit b) 0x7F800000 ∧ mul32 b a = mul32 a b := by
  rw [real_eq_zero_iff] at h0
  have hcomm : (signBit b != signBit a) = (signBit a != signBit b) := bne_comm
  rcases word_cases b with hfin | hinf | hnan
  · simp_all [mul32, isNaN_of_inf ha, isInf_of_finite hfin]
  · simp [mul32, ha, hb, hinf, isNaN_of_inf ha, isFinite_of_inf ha, isFinite_of_inf hinf, hcomm]
  · rw [hb] at hnan
    cases hnan

/-- Settles O32, from the law of each kind of operands. -/
theorem nonFiniteArithmetic : Obligations.NonFiniteArithmetic := by
  intro a b
  refine ⟨fun h => ⟨add32_of_nan a b h, sub32_of_nan a b h, mul32_of_nan a b h⟩,
    fun ha hb => ⟨add32_inf_finite ha hb, sub32_inf_finite ha hb⟩,
    fun ha hb => ⟨add32_finite_inf ha hb, sub32_finite_inf ha hb⟩,
    fun ha hb => ⟨add32_inf_inf ha hb, sub32_inf_inf ha hb⟩, fun ha hb h0 => mul32_inf_zero ha hb h0,
    fun ha hb h0 => ?product⟩
  case product =>
    obtain ⟨hab, hba⟩ := mul32_inf ha hb h0
    refine ⟨hab.trans ?_, hba⟩
    cases signBit a <;> cases signBit b <;> rfl

/-! ### The order -/

theorem lt32_finite_posInf {a : Word} (ha : isFinite a = true) : lt32 a 0x7F800000#32 = true := by
  have hkey : orderKey 0x7F800000#32 = 0x7F800000 := by decide
  have hnan : isNaN 0x7F800000#32 = false := by decide
  have := (abs_lt.1 (abs_orderKey_lt_of_finite ha)).2
  rw [lt32, hkey, decide_eq_true (by omega), hnan, isNaN_of_finite ha]
  rfl

theorem lt32_finite_negInf {a : Word} (ha : isFinite a = true) : lt32 a 0xFF800000#32 = false := by
  have hkey : orderKey 0xFF800000#32 = -0x7F800000 := by decide
  have := (abs_lt.1 (abs_orderKey_lt_of_finite ha)).1
  rw [lt32, hkey, decide_eq_false (by omega), Bool.and_false]

theorem finite_ne_inf {w v : Word} (hw : isFinite w = true) (hv : isInf v = true) : w ≠ v := by
  rintro rfl
  simp [isFinite_of_inf hv] at hw

/-- Settles O33: each clause for a finite word, for the two infinities and for a NaN. -/
theorem lessThanIsTheOrderOfValues : Obligations.LessThanIsTheOrderOfValues := by
  have hneg : isInf 0xFF800000#32 = true := by decide
  have hpos : isInf 0x7F800000#32 = true := by decide
  refine fun a b => ⟨lt32_of_nan, lt32_iff_of_finite, fun hb => ?fromNegInf, fun ha => ?toPosInf, ?toNegInf, ?fromPosInf⟩
  case fromNegInf =>
    rcases word_cases b with hfin | hinf | hnan
    · exact iff_of_true (lt32_negInf_of_finite hfin) (finite_ne_inf hfin hneg)
    · rcases isInf_cases hinf with rfl | rfl <;> decide
    · rw [hb] at hnan
      cases hnan
  case toPosInf =>
    rcases word_cases a with hfin | hinf | hnan
    · exact iff_of_true (lt32_finite_posInf hfin) (finite_ne_inf hfin hpos)
    · rcases isInf_cases hinf with rfl | rfl <;> decide
    · rw [ha] at hnan
      cases hnan
  case toNegInf =>
    rcases word_cases a with hfin | hinf | hnan
    · exact lt32_finite_negInf hfin
    · rcases isInf_cases hinf with rfl | rfl <;> decide
    · exact lt32_of_nan (.inl hnan)
  case fromPosInf =>
    rcases word_cases b with hfin | hinf | hnan
    · exact lt32_posInf_of_finite hfin
    · rcases isInf_cases hinf with rfl | rfl <;> decide
    · exact lt32_of_nan (.inr hnan)

end Sys2Proof.Machine
end

section
/-! The laws of the ROM (40_configure.md §3): what the clamps make of implausible operands, the range of its values, where it
is 1.0, its monotonicity, and that it has no ties. -/

namespace Sys2Proof.Machine

/-! ### Implausible operands -/

theorem coefRom_congr_cutoff {fc fc' : Word} (h : clampCutoff fc = clampCutoff fc') (fs : Word) :
    coefRom fc fs = coefRom fc' fs := by
  rw [coefRom, h, coefRom]

theorem coefRom_congr_rate {fs fs' : Word} (h : clampRate fs = clampRate fs') (fc : Word) :
    coefRom fc fs = coefRom fc fs' := by
  rw [coefRom, h, coefRom]

theorem clampCutoff_of_lt {fc : Word} (h : lt32 fc fcMin = true) : clampCutoff fc = fcMin := if_pos h

theorem clampRate_of_lt {fs : Word} (h : lt32 fs fsMin = true) : clampRate fs = fsFallback := if_pos h

/-- Settles O37: below its bound an operand clamps to what the named one clamps to. -/
theorem romIgnoresImplausibleOperands : Obligations.RomIgnoresImplausibleOperands := by
  refine fun fc fs => ⟨fun hc => coefRom_congr_cutoff ?cutoff fs, fun hs => coefRom_congr_rate ?rate fc⟩
  case cutoff =>
    have hone : clampCutoff 0x3F800000#32 = fcMin := by decide
    rcases hc with hlt | rfl
    · rw [hone, clampCutoff_of_lt hlt]
    · rfl
  case rate =>
    have hfallback : clampRate 0x472C4400#32 = fsFallback := by decide
    rw [hfallback, clampRate_of_lt hs]

/-! ### The ratio of R102 for the clamped operands -/

/-- The real number of R102 for the operands of CONFIG. -/
noncomputable def romRatio (fc fs : Word) : ℝ :=
  rcRatio Real.pi (real (clampCutoff fc) : ℚ) (real (clampRate fs) : ℚ)

section
variable {fc fs : Word} (hc : isFinite (clampCutoff fc) = true) (hs : isFinite (clampRate fs) = true)
include hc

theorem clampCutoff_pos : 0 < real (clampCutoff fc) := one_pos.trans_le (one_le_clampCutoff hc)

include hs

theorem coefRom_strictlyNearest {v : Word} (hne : real v ≠ real (coefRom fc fs)) :
    |((real (coefRom fc fs) : ℚ) : ℝ) - romRatio fc fs| < |((real v : ℚ) : ℝ) - romRatio fc fs| := by
  rw [coefRom, coefRomClamped_finite hc hs] at hne ⊢
  exact coefRomFinite_strictlyNearest (clampCutoff_pos hc) (by linarith [thousand_le_clampRate hs]) hne

theorem isFinite_coefRom : isFinite (coefRom fc fs) = true := by
  rw [coefRom, coefRomClamped_finite hc hs]
  exact isFinite_coefRomFinite _ (by linarith [thousand_le_clampRate hs])

theorem signBit_coefRom : signBit (coefRom fc fs) = false := by
  rw [coefRom, coefRomClamped_finite hc hs]
  exact signBit_coefRomFinite _ (by linarith [thousand_le_clampRate hs])

theorem coefRom_pos : 0 < real (coefRom fc fs) := by
  rw [coefRom, coefRomClamped_finite hc hs]
  exact coefRomFinite_pos hc (one_le_clampCutoff hc) (thousand_le_clampRate hs)

theorem coefRom_le_one : real (coefRom fc fs) ≤ 1 := by
  rw [coefRom, coefRomClamped_finite hc hs]
  exact coefRomFinite_le_one (clampCutoff_pos hc) (by linarith [thousand_le_clampRate hs])

end

/-- Settles O43: the ratio of two positive rationals and π is irrational, and the ROM's value is strictly nearest to it. -/
theorem romHasNoTies : Obligations.RomHasNoTies := by
  rintro fc fs f r hc hs rfl rfl
  exact ⟨rcRatio_pi_irrational (clampCutoff_pos hc) (by linarith [thousand_le_clampRate hs]),
    fun v _ hne => coefRom_strictlyNearest hc hs hne⟩

/-! ### Monotonicity -/

/-- Of two numbers the lesser has the lesser nearest word, where the nearest words are strictly nearest. -/
theorem real_le_of_strictlyNearest {w w' : Word} {t t' : ℝ} (htt : t ≤ t')
    (hw : real w' ≠ real w → |((real w : ℚ) : ℝ) - t| < |((real w' : ℚ) : ℝ) - t|)
    (hw' : real w ≠ real w' → |((real w' : ℚ) : ℝ) - t'| < |((real w : ℚ) : ℝ) - t'|) : real w ≤ real w' := by
  by_contra hlt
  rw [not_le] at hlt
  have hltR : ((real w' : ℚ) : ℝ) < ((real w : ℚ) : ℝ) := by exact_mod_cast hlt
  have hge := (abs_sub_le_abs_sub_iff_of_gt hltR t).1 (hw hlt.ne).le
  have hlt' := not_le.1 (mt (abs_sub_le_abs_sub_iff_of_gt hltR t').2 (not_le.2 (hw' hlt.ne')))
  linarith

theorem coefRom_le_of_romRatio_le {fc fc' fs fs' : Word} (hc : isFinite (clampCutoff fc) = true)
    (hc' : isFinite (clampCutoff fc') = true) (hs : isFinite (clampRate fs) = true)
    (hs' : isFinite (clampRate fs') = true) (h : romRatio fc fs ≤ romRatio fc' fs') :
    real (coefRom fc fs) ≤ real (coefRom fc' fs') :=
  real_le_of_strictlyNearest h (coefRom_strictlyNearest hc hs) (coefRom_strictlyNearest hc' hs')

theorem rcRatio_antitone_cutoff {c fc fc' fs : ℝ} (hc : 0 < c) (hfc : 0 < fc) (hfs : 0 < fs) (h : fc ≤ fc') :
    rcRatio c fc' fs ≤ rcRatio c fc fs := by
  rw [rcRatio, rcRatio]
  gcongr

theorem rcRatio_monotone_rate {c fc fs fs' : ℝ} (hc : 0 < c) (hfc : 0 < fc) (hfs : 0 < fs) (h : fs ≤ fs') :
    rcRatio c fc fs ≤ rcRatio c fc fs' := by
  have hpos : 0 < 2 * c * fc := by positivity
  rw [rcRatio, rcRatio, div_le_div_iff₀ (by linarith) (by linarith)]
  nlinarith

/-- Settles O42: the ratio falls with the cutoff and rises with the rate, and its nearest words follow it. -/
theorem romIsMonotone : Obligations.RomIsMonotone := by
  intro fc fc' fs fs' hc hc' hs hs'
  have hfc : (0 : ℝ) < (real (clampCutoff fc) : ℚ) := by exact_mod_cast clampCutoff_pos hc
  have hfs : (0 : ℝ) < (real (clampRate fs) : ℚ) := by
    have : 0 < real (clampRate fs) := by linarith [thousand_le_clampRate hs]
    exact_mod_cast this
  exact ⟨fun h => coefRom_le_of_romRatio_le hc' hc hs hs
      (rcRatio_antitone_cutoff Real.pi_pos hfc hfs (by exact_mod_cast h)),
    fun h => coefRom_le_of_romRatio_le hc hc hs hs' (rcRatio_monotone_rate Real.pi_pos hfc hfs (by exact_mod_cast h))⟩

/-! ### The range -/

theorem isFinite_clampCutoff {fc : Word} (h : isFinite fc = true) : isFinite (clampCutoff fc) = true := by
  rw [clampCutoff_eq_clampBelow, clampBelow_of_finite isFinite_fcMin h]
  split
  · exact isFinite_fcMin
  · exact h

/-- The largest finite value, FLT_MAX. -/
theorem real_le_maxFinite {w : Word} (h : isFinite w = true) : real w ≤ real 0x7F7FFFFF#32 := by
  have hkey := (abs_lt.1 (abs_orderKey_lt_of_finite h)).2
  have hmax : orderKey 0x7F7FFFFF#32 = 0x7F7FFFFF := by decide
  rw [← not_lt, real_lt_real_iff, ← orderKey_lt_iff_units, hmax]
  omega

theorem coefRom_least : coefRom 0x7F7FFFFF#32 0x447A0000#32 = 0x031F27AB#32 := by decide

/-- Settles O40: by monotonicity the greatest cutoff and the least rate have the least value. -/
theorem romRange : Obligations.RomRange := by
  refine ⟨fun fc fs hfc hfs => ?_, coefRom_least⟩
  have hc := isFinite_clampCutoff hfc
  have hs := isFinite_clampRate hfs
  have hmaxC : clampCutoff 0x7F7FFFFF#32 = 0x7F7FFFFF#32 := by decide
  have hminS : clampRate 0x447A0000#32 = fsMin := by decide
  have hmaxC' : isFinite (clampCutoff 0x7F7FFFFF#32) = true := by decide
  have hminS' : isFinite (clampRate 0x447A0000#32) = true := by decide
  have hleast : real 0x031F27AB#32 ≤ real (coefRom fc fs) := by
    rw [← coefRom_least]
    refine ((romIsMonotone fc _ 0x447A0000#32 fs hc hmaxC' hminS' hs).1 ?cutoff).trans
      ((romIsMonotone fc fc _ fs hc hc hminS' hs).2 ?rate)
    case cutoff => rw [hmaxC]; exact real_le_maxFinite hc
    case rate => rw [hminS, real_fsMin]; exact thousand_le_clampRate hs
  exact ⟨isFinite_coefRom hc hs, hleast, coefRom_pos hc hs, coefRom_le_one hc hs⟩

/-! ### Where the ROM gives 1.0 -/

theorem real_one32 : real one32 = 1 := by decide +kernel

theorem real_belowOne : real 0x3F7FFFFF#32 = 1 - 1 / 2 ^ 24 := by decide +kernel

/-- No finite value lies between 1 - 2^-24 and 1.0. -/
theorem real_le_of_lt_one {w : Word} (h : real w < 1) : real w ≤ 1 - 1 / 2 ^ 24 := by
  have hone : units one32 = magValue (0x3F7FFFFF + 1) := by decide
  have hbelow : units 0x3F7FFFFF#32 = magValue 0x3F7FFFFF := by decide
  rw [← real_one32, real_lt_real_iff, hone] at h
  rw [← real_belowOne, ← not_lt, real_lt_real_iff, hbelow, not_lt]
  exact units_le_magValue h

theorem eq_of_real_eq {v w : Word} (hs : signBit v = signBit w) (h : real v = real w) : v = w := by
  have hunits : units v = units w := by
    rw [real, real, div_left_inj' (by positivity)] at h
    exact_mod_cast h
  have hmag : magValue (lowBits v) = magValue (lowBits w) := by
    rw [← magUnits_eq, ← magUnits_eq, ← natAbs_units, ← natAbs_units, hunits]
  exact word_ext hs (magValue_strictMono.injective hmag)

/-- Settles O41: 1 - 2^-25 is halfway between 1.0 and the value below it, so from there on 1.0 is the nearer one. -/
theorem romIsOneAboveTheLastMidpoint : Obligations.RomIsOneAboveTheLastMidpoint := by
  rintro fc fs f r hc hs rfl rfl
  have hle := coefRom_le_one hc hs
  have hnear {v : Word} := coefRom_strictlyNearest (v := v) hc hs
  have hone : ((real one32 : ℚ) : ℝ) = 1 := by rw [real_one32, Rat.cast_one]
  rw [← rcRatio, ← romRatio]
  constructor
  · intro h
    have hbelow : ((real 0x3F7FFFFF#32 : ℚ) : ℝ) = 1 - 1 / 2 ^ 24 := by rw [real_belowOne]; push_cast; rfl
    have hlt : |((real one32 : ℚ) : ℝ) - romRatio fc fs| < |((real 0x3F7FFFFF#32 : ℚ) : ℝ) - romRatio fc fs| := by
      rw [one32, ← h]
      exact hnear (by rw [h, ← one32, real_one32, real_belowOne]; norm_num)
    rw [hone, hbelow] at hlt
    have hmid := (abs_sub_le_abs_sub_iff_of_gt (by norm_num) _).1 hlt.le
    linarith
  · intro h
    refine eq_of_real_eq (w := one32) (signBit_coefRom hc hs) ?_
    by_contra hne
    have hlt := hnear (Ne.symm hne)
    rw [real_one32] at hne
    have hless := lt_of_le_of_ne hle hne
    have hbelow : ((real (coefRom fc fs) : ℚ) : ℝ) ≤ 1 - 1 / 2 ^ 24 := by
      simpa using (Rat.cast_le (K := ℝ)).2 (real_le_of_lt_one hless)
    rw [hone] at hlt
    have hmid := not_le.1 (mt (abs_sub_le_abs_sub_iff_of_gt (by exact_mod_cast hless) _).2 (not_le.2 hlt))
    linarith

end Sys2Proof.Machine
end

section
/-! The laws of the recurrence (41_filter_core.md §1 and §2): NaN and infinity in it, a cleared history, silence, the unit
coefficient and the zero coefficient. -/

namespace Sys2Proof.Machine

/-! ### NaN and infinity -/

theorem isNaN_recurrence_of_prevOut {s : State} (h : isNaN s.prevOut = true) (x : Word) :
    isNaN (recurrence x s) = true := by
  rw [recurrence_of_nan x s (.inr (.inr (.inl h))), isNaN_canonicalNaN]

/-- A property of PREV_OUT that every recurrence keeps, and +0.0 has where the command is RESET, is kept by the command: no
other value is written there. -/
theorem exec_prevOut_induction {P : Word → Prop} {i : Instr} {s t : State}
    (hrec : ∀ x (u : State), P u.prevOut → P (recurrence x u)) (hzero : i = .reset → P plusZero) (hs : P s.prevOut)
    (h : exec i s = .next t) : P t.prevOut := by
  cases i with
  | reset => cases h; exact hzero rfl
  | procf x => cases h; exact hrec x s hs
  | procs x =>
    cases h
    rw [respond_prevOut, pathState_prevOut]
    exact hrec _ s hs
  | procb =>
    rcases exec_procb_next_cases h with ⟨-, rfl⟩ | ⟨_, -, -, -, rfl⟩ | ⟨blk, out, -, -, -, -, rfl⟩
    · exact hs
    · exact hs
    · rw [processBlock_prevOut]
      refine blockState_induction (fun u => P u.prevOut) blk out (fun k x u hu => ?_) _ _ _ hs
      rw [blockSample_prevOut]
      exact hrec _ u hu
  | _ => cases h; simpa using hs

/-- Settles O44: the NaN law of the recurrence, which the commands other than RESET keep in PREV_OUT. -/
theorem naNPropagatesAndSticks : Obligations.NaNPropagatesAndSticks :=
  ⟨fun s x h => recurrence_of_nan x s h, fun _ _ _ hn hi h => exec_prevOut_induction (P := fun w => isNaN w = true)
    (fun x _ hu => isNaN_recurrence_of_prevOut hu x) (fun hr => absurd hr hi) hn h⟩

theorem signBit_of_real_pos {w : Word} (h : 0 < real w) : signBit w = false := by
  have hz : real 0x00000000#32 = 0 := by decide +kernel
  rw [← hz, real_lt_real_iff, show units 0x00000000#32 = 0 by decide, units] at h
  cases hs : signBit w
  · rfl
  · rw [hs, if_pos rfl] at h
    omega

theorem recurrence_posInf {s : State} (hin : isFinite s.prevIn = true) (hout : isFinite s.prevOut = true) :
    recurrence 0x7F800000#32 s = mul32 s.coef 0x7F800000#32 := by
  rw [recurrence, add32_finite_inf hout (by decide), sub32_inf_finite (by decide) hin]

/-- With the same infinity in both history registers t1 is that infinity or a NaN, and t2 a NaN. -/
theorem recurrence_of_inf_history {s : State} (hin : isInf s.prevIn = true) (heq : s.prevOut = s.prevIn) (x : Word) :
    recurrence x s = canonicalNaN := by
  have ht2 : sub32 s.prevIn s.prevIn = canonicalNaN := by rw [sub32_inf_inf hin hin, if_pos rfl]
  have hnan := sub32_of_nan canonicalNaN s.prevIn (.inl isNaN_canonicalNaN)
  rcases word_cases x with hx | hx | hx
  · rw [recurrence, heq, add32_inf_finite hin hx, ht2]
    exact mul32_of_nan _ _ (.inr isNaN_canonicalNaN)
  · rw [recurrence, heq, add32_inf_inf hin hx]
    split
    · rw [ht2]
      exact mul32_of_nan _ _ (.inr isNaN_canonicalNaN)
    · rw [hnan]
      exact mul32_of_nan _ _ (.inr isNaN_canonicalNaN)
  · exact recurrence_of_nan x s (.inr (.inr (.inr hx)))

/-- Settles O45: an infinite input reaches the product, which is an infinity or, for a zero COEF, a NaN. -/
theorem infinityInTheRecurrence : Obligations.InfinityInTheRecurrence := by
  have hinf : isInf 0x7F800000#32 = true := by decide
  refine fun s x => ⟨fun hin hout hcoef => ⟨fun hpos => ?positive, fun hzero => ?zero⟩,
    fun hin heq => recurrence_of_inf_history hin heq x⟩
  case positive =>
    obtain ⟨hval, hcomm⟩ := mul32_inf hinf (isNaN_of_finite hcoef) fun h0 => hpos.ne' h0.2
    rw [recurrence_posInf hin hout, hcomm, hval, signBit_of_real_pos hpos]
    rfl
  case zero =>
    rw [recurrence_posInf hin hout]
    exact (mul32_inf_zero hinf hcoef hzero).2

/-! ### Zero and one as operands -/

theorem units_zero : units 0x00000000#32 = 0 := by decide

theorem eq_zero_of_units {w : Word} (h : units w = 0) (hs : signBit w = true) : w = 0x80000000#32 := by
  have hmag : magValue (lowBits w) = magValue 0 := by rw [← magUnits_eq, ← natAbs_units, h]; rfl
  exact word_ext hs (magValue_strictMono.injective hmag)

theorem signBit_of_units_zero {w : Word} (h : units w = 0) (hne : w ≠ 0x80000000#32) : signBit w = false :=
  Bool.eq_false_iff.2 fun hs => hne (eq_zero_of_units h hs)

/-- +0.0 added on the left changes nothing but -0.0 and the pattern of a NaN. -/
theorem zero_add32 {x : Word} (hx : isNaN x = false) (hne : x ≠ 0x80000000#32) : add32 0x00000000#32 x = x := by
  rcases word_cases x with hfin | hinf | hnan
  · rw [add32_eq_roundUnits (by decide) hfin, units_zero, zero_add]
    exact roundUnits_units hfin fun h0 => by rw [signBit_of_units_zero h0 hne, Bool.and_false]
  · exact add32_finite_inf (by decide) hinf
  · rw [hx] at hnan
    cases hnan

theorem sub32_zero {x : Word} (hx : isNaN x = false) : sub32 x 0x00000000#32 = x := by
  rcases word_cases x with hfin | hinf | hnan
  · rw [sub32_eq_roundUnits hfin (by decide), units_zero, sub_zero, show signBit 0x00000000#32 = false by decide]
    exact roundUnits_units hfin fun _ => Bool.and_true _
  · exact sub32_inf_finite hinf (by decide)
  · rw [hx] at hnan
    cases hnan

theorem mul32_comm_of_finite {a b : Word} (ha : isFinite a = true) (hb : isFinite b = true) :
    mul32 a b = mul32 b a := by
  rw [mul32_of_finite a b ha hb, mul32_of_finite b a hb ha, Nat.mul_comm, bne_comm]

/-- A zero times a finite value is a zero of its sign. -/
theorem zero_mul32 {b : Word} (hb : isFinite b = true) :
    mul32 0x00000000#32 b = if signBit b then 0x80000000#32 else 0x00000000#32 := by
  rw [mul32_of_finite _ _ (by decide) hb, show magUnits 0x00000000#32 = 0 by decide, Nat.zero_mul]
  cases signBit b <;> decide

/-- 1.0 times a finite value is that value. -/
theorem one_mul32 {b : Word} (hb : isFinite b = true) : mul32 one32 b = b := by
  have hfin := (isFinite_iff b).1 hb
  have hexact := roundPattern_exact (lowBits b) (2 ^ 149) (by positivity)
  rw [mul32_of_finite _ _ (by decide) hb, show magUnits one32 = 2 ^ 149 by decide, Nat.mul_comm, magUnits_eq, roundMag_eq,
    hexact, min_eq_left hfin.le, show signBit one32 = false by decide, Bool.false_bne, pack_self]

/-! ### A cleared history -/

/-- Settles O46: t1 and t2 are x, but for -0.0, which +0.0 + -0.0 turns to +0.0, and for a NaN, which stays one. -/
theorem firstSampleIsCoefTimesInput : Obligations.FirstSampleIsCoefTimesInput := by
  intro s hin hout
  refine ⟨fun x hne => ?input, fun hfin hsign => ?negZero⟩
  case input =>
    cases hx : isNaN x with
    | true => rw [recurrence_of_nan x s (.inr (.inr (.inr hx))), mul32_of_nan _ _ (.inr hx)]
    | false => rw [recurrence, hin, hout, zero_add32 hx hne, sub32_zero hx]
  case negZero =>
    have ht2 : sub32 (add32 0x00000000#32 0x80000000#32) 0x00000000#32 = 0x00000000#32 := by decide
    rw [recurrence, hin, hout, ht2, mul32_comm_of_finite hfin (by decide), zero_mul32 hfin, hsign]
    rfl

/-- A zero sample from a cleared history is answered by zero and leaves every register (R145). -/
theorem exec_procs_zero {s : State} (hfin : isFinite s.coef = true) (hsign : signBit s.coef = false)
    (hin : s.prevIn = 0x00000000#32) (hout : s.prevOut = 0x00000000#32) :
    exec (.procs 0#16) s = .next { s with responses := s.responses ++ [⟨.ok, 0x00000000#32⟩] } := by
  have hconvert : i16ToF32 0#16 = 0x00000000#32 := by decide
  have hy : recurrence 0x00000000#32 s = 0x00000000#32 := by
    rw [(firstSampleIsCoefTimesInput s hin hout).1 _ (by decide), mul32_comm_of_finite hfin (by decide),
      zero_mul32 hfin, hsign]
    rfl
  have hnumber : isNaN 0x00000000#32 = false := by decide
  have hq : (quantizeNumber 0x00000000#32).signExtend 32 = 0x00000000#32 := by decide
  rw [exec_procs, hconvert, hy, quantized_of_number hnumber, hq, hnumber, if_neg Bool.false_ne_true]
  cases s
  simp only at hin hout
  subst hin hout
  rfl

/-- Settles O47, by induction on the number of samples: each leaves a cleared history. -/
theorem silenceStaysSilent : Obligations.SilenceStaysSilent := by
  intro n
  induction n with
  | zero => intro s _ _ _ _; simp [execAll]
  | succ n ih =>
    intro s hfin hsign hin hout
    rw [List.replicate_succ, execAll_cons_of_next (exec_procs_zero hfin hsign hin hout),
      ih { s with responses := s.responses ++ [⟨.ok, 0x00000000#32⟩] } hfin hsign hin hout, List.append_assoc]
    rfl

/-! ### The unit coefficient and the zero coefficient -/

theorem units_of_real_intCast {w : Word} {n : Int} (h : real w = n) : units w = 2 ^ 149 * n := by
  rw [real, div_eq_iff (by positivity), mul_comm] at h
  exact_mod_cast h

theorem isFinite_and_units_roundUnits (zeroSign : Bool) {k : Int} (hk : |k| < 2 ^ 24) :
    isFinite (roundUnits zeroSign (2 ^ 149 * k)) = true ∧ units (roundUnits zeroSign (2 ^ 149 * k)) = 2 ^ 149 * k := by
  have habs : (2 ^ 149 * k).natAbs = 2 ^ 149 * k.natAbs := Int.natAbs_mul _ _
  obtain ⟨hfin, hval⟩ := roundMag_natCast (m := k.natAbs) (by rw [abs_lt] at hk; omega)
  rw [isFinite_iff, units_eq, roundUnits, lowBits_pack _ _ (roundMag_lt _ _), signBit_pack _ _ (roundMag_lt _ _), habs,
    hval]
  refine ⟨hfin, ?_⟩
  rcases lt_trichotomy k 0 with hneg | rfl | hpos
  · rw [if_neg (by omega : ¬ 2 ^ 149 * k = 0), decide_eq_true (by omega), if_pos rfl]
    omega
  · simp
  · rw [if_neg (by omega : ¬ 2 ^ 149 * k = 0), decide_eq_false (by omega), if_neg Bool.false_ne_true]
    omega

/-- Integers below 2^23 go through t1 and t2 exactly, and t2 is x again: a zero x is +0.0, and then t1 has the sign of
the history. -/
theorem sub32_add32_of_integer {p x : Word} {m n : Int} (hp : isFinite p = true) (hx : isFinite x = true)
    (hm : real p = m) (hm' : |m| < 2 ^ 23) (hn : real x = n) (hn' : |n| < 2 ^ 23) (hne : x ≠ 0x80000000#32) :
    sub32 (add32 p x) p = x := by
  have hsum : units p + units x = 2 ^ 149 * (m + n) := by
    rw [units_of_real_intCast hm, units_of_real_intCast hn, mul_add]
  have hlt : |m + n| < 2 ^ 24 := by
    have := abs_add_le m n
    omega
  obtain ⟨hfin, hunits⟩ := isFinite_and_units_roundUnits (signBit p && signBit x) hlt
  have hdiff : 2 ^ 149 * (m + n) - units p = units x := by omega
  rw [add32_eq_roundUnits hp hx, hsum, sub32_eq_roundUnits hfin hp, hunits, hdiff]
  refine roundUnits_units hx fun h0 => ?_
  have hsx := signBit_of_units_zero h0 hne
  rw [← hsum, h0, add_zero, hsx, Bool.and_false]
  by_cases hp0 : units p = 0
  · rw [hp0, roundUnits_zero]
    rfl
  · rw [roundUnits_units hp fun h => absurd h hp0, Bool.and_not_self]

/-- Settles O48: t2 is x, and 1.0 × x is x. -/
theorem passThroughAtUnitCoefficient : Obligations.PassThroughAtUnitCoefficient := by
  intro s x m n hcoef hpp hp hx hm hm' hn hn' hne
  have hy : recurrence x s = x := by
    rw [recurrence, hcoef, ← hpp, sub32_add32_of_integer hp hx hm hm' hn hn' hne]
    exact one_mul32 hx
  rw [exec_procf, hy]

/-- Settles O49: the product with +0.0 is a zero of the sign of t2. -/
theorem zeroCoefficientGivesZero : Obligations.ZeroCoefficientGivesZero := by
  intro s x hcoef hfin
  rw [recurrence, hcoef, zero_mul32 hfin]

end Sys2Proof.Machine
end

section
/-! The invariant INV of the integer path (42_sample_path.md §4, R148). -/

namespace Sys2Proof.Machine

/-! ### COEF: what the ROM gives on the integer path -/

theorem clampBelow_eq_or (bound repl w : Word) : clampBelow bound repl w = repl ∨ clampBelow bound repl w = w := by
  rw [clampBelow]
  split
  · exact .inl rfl
  · exact .inr rfl

theorem invCoef_plusZero : InvCoef plusZero := ⟨by decide, by decide +kernel, by decide +kernel⟩

theorem invCoef_one32 : InvCoef one32 := ⟨by decide, by decide +kernel, by decide +kernel⟩

/-- Clamping makes neither a NaN nor +infinity of another operand. -/
theorem clampBelow_cases_of_number {bound repl w : Word} (hb : isFinite bound = true) (hr : isFinite repl = true)
    (hle : real bound ≤ real repl) (hw : isNaN w = false) :
    (w = 0x7F800000#32 ∧ clampBelow bound repl w = 0x7F800000#32) ∨ isFinite (clampBelow bound repl w) = true := by
  rcases clampBelow_eq_or bound repl w with h | h
  · exact .inr (by rw [h, hr])
  · rcases clampBelow_cases hb hr hle w with hnan | hinf | ⟨hfin, -⟩
    · rw [h, hw] at hnan
      cases hnan
    · exact .inl ⟨h.symm.trans hinf, hinf⟩
    · exact .inr hfin

theorem clampCutoff_cases_of_number {fc : Word} (h : isNaN fc = false) :
    (fc = 0x7F800000#32 ∧ clampCutoff fc = 0x7F800000#32) ∨ isFinite (clampCutoff fc) = true :=
  clampBelow_cases_of_number isFinite_fcMin isFinite_fcMin le_rfl h

theorem clampRate_cases_of_number {fs : Word} (h : isNaN fs = false) :
    (fs = 0x7F800000#32 ∧ clampRate fs = 0x7F800000#32) ∨ isFinite (clampRate fs) = true :=
  clampBelow_cases_of_number isFinite_fsMin isFinite_fsFallback (by rw [real_fsMin, real_fsFallback]; norm_num) h

/-- On the integer path the ROM gives a number from 0 to 1 (R102, R103). -/
theorem invCoef_coefRom {fc fs : Word} (h : integerPath (.config fc fs)) : InvCoef (coefRom fc fs) := by
  obtain ⟨hfc, hfs, hboth⟩ := h
  rcases clampCutoff_cases_of_number hfc with ⟨hc, hc'⟩ | hc <;>
    rcases clampRate_cases_of_number hfs with ⟨hs, hs'⟩ | hs
  · exact absurd ⟨hc, hs⟩ hboth
  · rw [coefRom, hc', coefRomClamped_inf_finite hs]
    exact invCoef_plusZero
  · rw [coefRom, hs', coefRomClamped_finite_inf hc]
    exact invCoef_one32
  · exact ⟨isFinite_coefRom hc hs, (coefRom_pos hc hs).le, coefRom_le_one hc hs⟩

theorem integerPath_default : integerPath (.config fcDefault fsDefault) := ⟨by decide, by decide, by decide⟩

/-! ### The history: the samples and the bound 2^42 -/

theorem invPrevIn_plusZero : InvPrevIn plusZero := ⟨by decide, 0, by decide +kernel, by decide, by decide⟩

theorem invPrevOut_plusZero : InvPrevOut plusZero := ⟨by decide, by decide +kernel⟩

theorem invPrevIn_i16ToF32 (x : Sample) : InvPrevIn (i16ToF32 x) :=
  ⟨isFinite_i16ToF32 x, x.toInt, real_i16ToF32 x, toInt_sample_bounds x⟩

theorem abs_real_le_of_invPrevIn {w : Word} (h : InvPrevIn w) : |real w| ≤ 2 ^ 15 := by
  obtain ⟨-, n, hn, hlo, hhi⟩ := h
  have hn' : |n| ≤ 2 ^ 15 := abs_le.2 ⟨by omega, by omega⟩
  rw [hn]
  exact_mod_cast hn'

theorem real_neg32 (w : Word) : real (neg32 w) = -real w := by
  rw [real, real, units_neg32, Int.cast_neg, neg_div]

theorem NearestEven.neg {w : Word} {t : ℝ} (h : NearestEven w t) : NearestEven (neg32 w) (-t) := by
  have hparity : (neg32 w).toNat % 2 = w.toNat % 2 := by
    rw [toNat_eq_lowBits (neg32 w), toNat_eq_lowBits w, lowBits_neg32]
    split <;> split <;> omega
  refine ⟨(isFinite_neg32 w).trans h.1, fun v hv => ?_⟩
  have hnear : |((real (neg32 w) : ℚ) : ℝ) - -t| = |((real w : ℚ) : ℝ) - t| := by
    rw [real_neg32, Rat.cast_neg, neg_sub_neg, abs_sub_comm]
  have hfar : |((real v : ℚ) : ℝ) - -t| = |((real (neg32 v) : ℚ) : ℝ) - t| := by
    rw [real_neg32, Rat.cast_neg, ← neg_add', abs_neg, sub_neg_eq_add]
  obtain ⟨hle, heven⟩ := h.2 (neg32 v) ((isFinite_neg32 v).trans hv)
  rw [hnear, hfar, hparity]
  refine ⟨hle, fun he hne => heven he fun h' => hne ?_⟩
  rw [real_neg32, ← h', real_neg32, neg_neg]

theorem real_bound : real 0x54800000#32 = 2 ^ 42 := by decide +kernel

/-- The value after 2^42 is 2^42 + 2^19, so what exceeds 2^42 by no more than a sample rounds to no more than 2^42. -/
theorem NearestEven.real_le_bound {w : Word} {t : ℝ} (h : NearestEven w t) (ht : t ≤ 2 ^ 42 + 2 ^ 15) :
    real w ≤ 2 ^ 42 := by
  by_contra hlt
  rw [not_le, ← real_bound] at hlt
  have hmid := (abs_sub_le_abs_sub_iff_of_gt (by exact_mod_cast hlt) t).1 (h.2 0x54800000#32 (by decide)).1
  rw [real_lt_real_iff, show units 0x54800000#32 = magValue 0x54800000 by decide] at hlt
  have hnext := magValue_succ_le_units hlt
  rw [show magValue (0x54800000 + 1) = (2 ^ 42 + 2 ^ 19) * 2 ^ 149 by decide] at hnext
  have hw : (2 : ℝ) ^ 42 + 2 ^ 19 ≤ ((real w : ℚ) : ℝ) := by
    rw [real_cast, le_div_iff₀ (by positivity)]
    exact_mod_cast hnext
  rw [real_bound] at hmid
  push_cast at hmid
  linarith

theorem NearestEven.invPrevOut {w : Word} {t : ℝ} (h : NearestEven w t) (ht : |t| ≤ 2 ^ 42 + 2 ^ 15) : InvPrevOut w := by
  obtain ⟨hlo, hhi⟩ := abs_le.1 ht
  have hneg := h.neg.real_le_bound (by linarith)
  rw [real_neg32] at hneg
  exact ⟨h.1, abs_le.2 ⟨by linarith, h.real_le_bound hhi⟩⟩

theorem abs_cast_lt_overflowBound {q : ℚ} (h : |q| ≤ 2 ^ 42 + 2 ^ 15) :
    |(q : ℝ)| ≤ 2 ^ 42 + 2 ^ 15 ∧ |(q : ℝ)| < overflowBound := by
  have hR : |(q : ℝ)| ≤ 2 ^ 42 + 2 ^ 15 := by exact_mod_cast h
  refine ⟨hR, hR.trans_lt ?_⟩
  rw [overflowBound]
  norm_num

/-- t1 keeps the bound of PREV_OUT. -/
theorem invPrevOut_add32 {p x : Word} (hp : InvPrevOut p) (hx : InvPrevIn x) : InvPrevOut (add32 p x) := by
  obtain ⟨hfin, hle⟩ := hp
  obtain ⟨hR, hlt⟩ := abs_cast_lt_overflowBound ((abs_add_le (real p) (real x)).trans
    (add_le_add hle (abs_real_le_of_invPrevIn hx)))
  exact ((sumIsRoundedOnce p x hfin hx.1).1 hlt).invPrevOut hR

/-- t2 keeps it. -/
theorem invPrevOut_sub32 {p x : Word} (hp : InvPrevOut p) (hx : InvPrevIn x) : InvPrevOut (sub32 p x) := by
  obtain ⟨hfin, hle⟩ := hp
  obtain ⟨hR, hlt⟩ := abs_cast_lt_overflowBound ((abs_sub (real p) (real x)).trans
    (add_le_add hle (abs_real_le_of_invPrevIn hx)))
  exact ((differenceIsRoundedOnce p x hfin hx.1).1 hlt).invPrevOut hR

/-- The product with a coefficient from 0 to 1 keeps it. -/
theorem invPrevOut_mul32 {c p : Word} (hc : InvCoef c) (hp : InvPrevOut p) : InvPrevOut (mul32 c p) := by
  obtain ⟨hcfin, hc0, hc1⟩ := hc
  obtain ⟨hfin, hle⟩ := hp
  have hprod : |real c * real p| ≤ 2 ^ 42 + 2 ^ 15 := by
    rw [abs_mul, abs_of_nonneg hc0]
    have := mul_le_of_le_one_left (abs_nonneg (real p)) hc1
    linarith
  obtain ⟨hR, hlt⟩ := abs_cast_lt_overflowBound hprod
  exact (mul32_nearest hcfin hfin hlt).invPrevOut hR

theorem invPrevOut_recurrence {s : State} (hs : Inv s) (x : Sample) : InvPrevOut (recurrence (i16ToF32 x) s) := by
  obtain ⟨hcoef, hin, hout⟩ := hs
  exact invPrevOut_mul32 hcoef (invPrevOut_sub32 (invPrevOut_add32 hout (invPrevIn_i16ToF32 x)) hin)

/-- Settles O52: y is finite, so it is no NaN and its quantization takes no draw. -/
theorem outputsAreBoundedUnderInv : Obligations.OutputsAreBoundedUnderInv := by
  intro s x hs
  obtain ⟨hfin, hle⟩ := invPrevOut_recurrence hs x
  have hnumber := isNaN_of_finite hfin
  refine ⟨hfin, hle, ?sample, ?draws⟩
  case sample => rw [pathSample, quantized_of_number hnumber]
  case draws => rw [pathState, takeDraw_of_number _ _ hnumber, processSample_draws]

/-! ### The steps -/

/-- Settles O50: the coefficient after reset is the ROM's value at the construction's operands. -/
theorem invHoldsAtReset : Obligations.InvHoldsAtReset :=
  ⟨resetValues.2.1 ▸ invCoef_coefRom integerPath_default, invPrevIn_plusZero, invPrevOut_plusZero⟩

theorem inv_engineReset (s : State) : Inv (engineReset s) := by
  rw [Inv, engineReset_coef, engineReset_prevIn, engineReset_prevOut]
  exact ⟨invCoef_coefRom integerPath_default, invPrevIn_plusZero, invPrevOut_plusZero⟩

theorem inv_blockSample {s : State} (hs : Inv s) (blk : InBlock) (out : OutHandle) (k : Nat) (x : Sample) :
    Inv (blockSample blk out k x s) := by
  rw [Inv, blockSample_coef, blockSample_prevIn, blockSample_prevOut]
  exact ⟨hs.1, invPrevIn_i16ToF32 x, invPrevOut_recurrence hs x⟩

theorem exec_reset_inv {s t : State} (hs : InvCoef s.coef) (h : exec .reset s = .next t) : Inv t := by
  cases h
  exact ⟨hs, invPrevIn_plusZero, invPrevOut_plusZero⟩

theorem exec_procb_inv {s t : State} (hs : Inv s) (h : exec .procb s = .next t) : Inv t := by
  rcases exec_procb_next_cases h with ⟨-, rfl⟩ | ⟨_, -, -, -, rfl⟩ | ⟨blk, out, -, -, -, -, rfl⟩
  · exact hs
  · exact hs
  · have hblock := blockState_induction Inv blk out (fun k x u hu => inv_blockSample hu blk out k x) blk.samples 0
      (hostAllocate (hostAcquire s)) hs
    rw [Inv, blockState_coef] at hblock
    rw [Inv, processBlock_coef, processBlock_prevIn, processBlock_prevOut]
    exact hblock

theorem exec_inv {i : Instr} {s t : State} (hs : Inv s) (hi : integerPath i) (h : exec i s = .next t) : Inv t := by
  cases i with
  | config fc fs => cases h; exact ⟨invCoef_coefRom hi, hs.2⟩
  | reset => exact exec_reset_inv hs.1 h
  | procf x => exact hi.elim
  | procs x =>
    cases h
    rw [Inv, respond_coef, respond_prevIn, respond_prevOut, pathState_coef, pathState_prevIn, pathState_prevOut]
    exact ⟨hs.1, invPrevIn_i16ToF32 x, invPrevOut_recurrence hs x⟩
  | procb => exact exec_procb_inv hs h
  | _ => cases h; exact hs

/-- Settles O51: each command of the integer path, and RESET from the first clause alone. -/
theorem integerPathKeepsInv : Obligations.IntegerPathKeepsInv :=
  ⟨fun _ _ _ hs hi h => exec_inv hs hi h, fun _ _ hs h => exec_reset_inv hs h⟩

/-- Settles O53: a step is idle, a reset, an illegal command or an instruction of the integer path, and what it takes from
the host's list is the first entry. -/
theorem integerRunKeptByStep : Obligations.IntegerRunKeptByStep := by
  intro s t hrun h
  obtain ⟨hs, hlist⟩ := hrun
  rcases step_cases s t h with ⟨-, rfl⟩ | ⟨rest, hin, rfl⟩ | ⟨c, ans, rest, hin, ⟨e, -, rfl⟩ | ⟨i, hi, hexec⟩⟩
  · exact ⟨hs, hlist⟩
  · rw [hin, List.forall_mem_cons] at hlist
    exact ⟨inv_engineReset _, by rw [engineReset_inputs]; exact hlist.2⟩
  · rw [hin, List.forall_mem_cons] at hlist
    exact ⟨hs, hlist.2⟩
  · rw [hin, List.forall_mem_cons] at hlist
    refine ⟨exec_inv (s := latch ans rest s) hs (hlist.1 i hi) hexec, ?_⟩
    rw [(exec_host hexec).1, latch_inputs]
    exact hlist.2

end Sys2Proof.Machine
end

section
/-! The legal values of COEF, PREV_OUT and the trace, whatever the host issues (R21, R44, R50 (d), D8). -/

namespace Sys2Proof.Machine

/-! ### COEF -/

theorem toNat_le_of_real_le_one {w : Word} (hs : signBit w = false) (h : real w ≤ 1) : w.toNat ≤ 0x3F800000 := by
  rw [← real_one32, ← not_lt, real_lt_real_iff, not_lt, units_eq, units_eq, hs,
    show signBit one32 = false by decide, show lowBits one32 = 0x3F800000 by decide] at h
  have hmag : magValue (lowBits w) ≤ magValue 0x3F800000 := by simpa using h
  rw [toNat_eq_lowBits, hs, if_neg Bool.false_ne_true, Nat.zero_add]
  exact magValue_strictMono.le_iff_le.1 hmag

theorem legalCoef_coefRom (fc fs : Word) : LegalCoef (coefRom fc fs) := by
  rcases coefRomClamped_cases (clampCutoff fc) (clampRate fs) with h | h | h | ⟨hc, hs, -⟩
  · exact .inr h
  · exact .inl (by rw [coefRom, h]; decide)
  · exact .inl (by rw [coefRom, h]; decide)
  · exact .inl (toNat_le_of_real_le_one (signBit_coefRom hc hs) (coefRom_le_one hc hs))

theorem exec_legalCoef {i : Instr} {s t : State} (hs : LegalCoef s.coef) (h : exec i s = .next t) : LegalCoef t.coef := by
  rcases exec_coef_cases h with hkept | ⟨fc, fs, -, hrom⟩
  · rwa [hkept]
  · rw [hrom]
    exact legalCoef_coefRom fc fs

/-! ### PREV_OUT -/

theorem legalPrevOut_recurrence (x : Word) (s : State) : LegalPrevOut (recurrence x s) :=
  mul32_nan_canonical _ _

theorem legalPrevOut_plusZero : LegalPrevOut plusZero := fun h => absurd h (by decide)

theorem exec_legalPrevOut {i : Instr} {s t : State} (hs : LegalPrevOut s.prevOut) (h : exec i s = .next t) :
    LegalPrevOut t.prevOut :=
  exec_prevOut_induction (fun x u _ => legalPrevOut_recurrence x u) (fun _ => legalPrevOut_plusZero) hs h

/-! ### The trace -/

theorem legalEvent_sampleEvents (blk : InBlock) (out : OutHandle) (xs : List Sample) :
    ∀ (k : Nat) (qs : List Sample), k + xs.length ≤ Config.blockLen → ∀ e ∈ sampleEvents blk out k xs qs, LegalEvent e := by
  induction xs with
  | nil => intro k qs _ e he; simp [sampleEvents] at he
  | cons x xs ih =>
    intro k qs hk e he
    rw [List.length_cons] at hk
    cases qs with
    | nil => simp [sampleEvents] at he
    | cons q qs =>
      rw [sampleEvents, List.mem_cons, List.mem_cons] at he
      have hlt : k < Config.blockLen := by omega
      rcases he with rfl | rfl | he
      · exact hlt
      · exact hlt
      · exact ih (k + 1) qs (by omega) e he

theorem legalEvent_doneEvents {blk : InBlock} {qs : List Sample} (out : OutHandle)
    (hlen : blk.samples.length = Config.blockLen) (hqs : qs.length = Config.blockLen) :
    ∀ e ∈ doneEvents blk out qs, LegalEvent e := by
  have hsamples := legalEvent_sampleEvents blk out blk.samples 0 qs (by omega)
  rw [doneEvents, List.forall_mem_append, List.forall_mem_append]
  refine ⟨⟨by simp [LegalEvent], hsamples⟩, by simpa [LegalEvent] using hqs⟩

theorem exec_legalTrace {i : Instr} {s t : State} (hs : ∀ e ∈ s.trace, LegalEvent e) (h : exec i s = .next t) :
    ∀ e ∈ t.trace, LegalEvent e := by
  by_cases hi : i = .procb
  · subst hi
    rcases exec_procb_next_cases h with ⟨-, rfl⟩ | ⟨blk, -, -, -, rfl⟩ | ⟨blk, out, hacq, hlen, hall, -, rfl⟩
    · simpa [or_imp, forall_and, LegalEvent] using hs
    · simpa [or_imp, forall_and, LegalEvent] using hs
    · rw [processBlock_trace_of_answers hacq hall, List.forall_mem_append]
      exact ⟨hs, legalEvent_doneEvents out hlen (by rw [blockOutput_length, hlen])⟩
  · rwa [exec_trace h hi]

/-! ### The steps -/

theorem exec_legal {i : Instr} {s t : State} (hs : Legal s) (h : exec i s = .next t) : Legal t := by
  obtain ⟨hcoef, hout, htrace⟩ := hs
  exact ⟨exec_legalCoef hcoef h, exec_legalPrevOut hout h, exec_legalTrace htrace h⟩

/-- Settles O54: the coefficient after reset is a value of the ROM. -/
theorem legalAtReset : Obligations.LegalAtReset :=
  ⟨resetValues.2.1 ▸ legalCoef_coefRom fcDefault fsDefault, legalPrevOut_plusZero, by simp [State.reset]⟩

/-- Settles O55: a step is idle, a reset, an illegal command, which writes none of the three, or an instruction. -/
theorem legalKeptByStep : Obligations.LegalKeptByStep := by
  intro s t hs h
  rcases step_cases s t h with ⟨-, rfl⟩ | ⟨rest, -, rfl⟩ | ⟨c, ans, rest, -, ⟨e, -, rfl⟩ | ⟨i, -, hexec⟩⟩
  · exact hs
  · rw [Legal, engineReset_coef, engineReset_prevOut, engineReset_trace]
    exact ⟨legalCoef_coefRom _ _, legalPrevOut_plusZero, by simp⟩
  · exact hs
  · exact exec_legal (s := latch ans rest s) hs hexec

end Sys2Proof.Machine
end
